-- ==== Sys2Proof/Word.lean ====
section
/-! DEFINITION. Word.lean: the words the block handles (00_scope.md R12, R13). -/

namespace Sys2Proof

/-- An unsigned 8-bit value (R12). -/
abbrev Byte := BitVec 8

/-- A byte string: the first byte is first on the wire or lowest in memory (R13). -/
abbrev Bytes := List Byte

end Sys2Proof
end

