-- ==== Sys2Proof/Config.lean ====
section
/-! DEFINITION. Config.lean: the fixed literals of the source, the configuration of 00_scope.md R9 as plain data, and
the uninterpreted constants: the OPEN functions, the draws of R10 and the contents nothing specifies. -/

namespace Sys2Proof

/-- `RB_FULL_MODE` (R9): where the full-buffer threshold lies (40_ring_buffer.md header, 90_conflicts.md C1). -/
inductive FullMode where
  | reserveSlot
  | verbatim
  deriving DecidableEq, Repr, Inhabited

/-- The answer of the transmit facility for one frame (R10, R181). -/
inductive TxOutcome where
  | ok
  | fail
  deriving DecidableEq, Repr, Inhabited

/-- The answer of the flash layer for one admitted write (R10, R77). -/
inductive FlashOutcome where
  | ok
  | fail
  deriving DecidableEq, Repr, Inhabited

/-- The thirteen DFU commands (30_encoding.md R115). -/
inductive DfuCmd where
  | initReq
  | initResp
  | statusReq
  | statusResp
  | pageCreateReq
  | pageCreateResp
  | writeDataEvt
  | pageStoreReq
  | pageStoreResp
  | stateCheckReq
  | stateCheckResp
  | cancelReq
  | cancelResp
  deriving DecidableEq, Repr, Inhabited

/-- The seven status names of a DFU response (30_encoding.md R116). -/
inductive Status where
  | success
  | invalidObject
  | firmwareAlreadyUpToDate
  | insufficientResources
  | operationNotPermitted
  | operationFailed
  | firmwareSuccessfullyUpdated
  deriving DecidableEq, Repr, Inhabited

/-- The OPEN parameter `CMD`: one byte per DFU command (R115). -/
structure CmdCodes where
  initReq : Byte
  initResp : Byte
  statusReq : Byte
  statusResp : Byte
  pageCreateReq : Byte
  pageCreateResp : Byte
  writeDataEvt : Byte
  pageStoreReq : Byte
  pageStoreResp : Byte
  stateCheckReq : Byte
  stateCheckResp : Byte
  cancelReq : Byte
  cancelResp : Byte
  deriving DecidableEq, Repr

/-- `CMD(name)` (R115). -/
def CmdCodes.code (c : CmdCodes) : DfuCmd → Byte
  | .initReq => c.initReq
  | .initResp => c.initResp
  | .statusReq => c.statusReq
  | .statusResp => c.statusResp
  | .pageCreateReq => c.pageCreateReq
  | .pageCreateResp => c.pageCreateResp
  | .writeDataEvt => c.writeDataEvt
  | .pageStoreReq => c.pageStoreReq
  | .pageStoreResp => c.pageStoreResp
  | .stateCheckReq => c.stateCheckReq
  | .stateCheckResp => c.stateCheckResp
  | .cancelReq => c.cancelReq
  | .cancelResp => c.cancelResp

/-- The thirteen codes. -/
def CmdCodes.all (c : CmdCodes) : List Byte :=
  [c.initReq, c.initResp, c.statusReq, c.statusResp, c.pageCreateReq, c.pageCreateResp, c.writeDataEvt,
   c.pageStoreReq, c.pageStoreResp, c.stateCheckReq, c.stateCheckResp, c.cancelReq, c.cancelResp]

/-- The OPEN parameter `STATUS`: one byte per status name (R116). -/
structure StatusCodes where
  success : Byte
  invalidObject : Byte
  firmwareAlreadyUpToDate : Byte
  insufficientResources : Byte
  operationNotPermitted : Byte
  operationFailed : Byte
  firmwareSuccessfullyUpdated : Byte
  deriving DecidableEq, Repr

/-- `STATUS(name)` (R116). -/
def StatusCodes.code (c : StatusCodes) : Status → Byte
  | .success => c.success
  | .invalidObject => c.invalidObject
  | .firmwareAlreadyUpToDate => c.firmwareAlreadyUpToDate
  | .insufficientResources => c.insufficientResources
  | .operationNotPermitted => c.operationNotPermitted
  | .operationFailed => c.operationFailed
  | .firmwareSuccessfullyUpdated => c.firmwareSuccessfullyUpdated

/-- The seven values. -/
def StatusCodes.all (c : StatusCodes) : List Byte :=
  [c.success, c.invalidObject, c.firmwareAlreadyUpToDate, c.insufficientResources, c.operationNotPermitted,
   c.operationFailed, c.firmwareSuccessfullyUpdated]

/-- The configuration of R9 as plain data. The three `…Known` tables hold values of the OPEN functions `CRC16_FN`,
`CRC32_FN` and `SHA256_FN` on the byte strings they list; everywhere else those functions are uninterpreted
(DESIGN CHOICE, safe, log 3). -/
structure Params where
  /-- `RB_CAPACITY`, the capacity boot code passes to RB_INIT (R9, R284). -/
  rbCapacity : Nat
  /-- `RB_FULL_MODE`. -/
  fullMode : FullMode
  /-- `RESYNC_REEXAMINE` (R178). -/
  resyncReexamine : Bool
  /-- `CMD`. -/
  cmd : CmdCodes
  /-- `FORWARD_SET`. -/
  forwardSet : List Byte
  /-- `STATUS`. -/
  status : StatusCodes
  /-- `FLASH_BASE`. -/
  flashBase : BitVec 32
  /-- `FLASH_REGION_SIZE` in bytes. -/
  flashRegionSize : Nat
  /-- `FLASH_WORD_BYTES`, W. -/
  flashWordBytes : Nat
  /-- `ERASED_VALUE`. -/
  erasedValue : Byte
  /-- `BYPASS_TOKEN`. -/
  bypassToken : Bytes
  /-- `PRODUCT_TAG`. -/
  productTag : Bytes
  /-- `RUNNING_BUILD`. -/
  runningBuild : Bytes
  /-- Values of `CRC16_FN`. -/
  crc16Known : List (Bytes × BitVec 16)
  /-- Values of `CRC32_FN`. -/
  crc32Known : List (Bytes × BitVec 32)
  /-- Values of `SHA256_FN`, each 32 bytes. -/
  sha256Known : List (Bytes × Bytes)
  deriving DecidableEq, Repr

namespace Config

/-- `PREAMBLE_1` (R9, 30_encoding.md R110). -/
abbrev preamble1 : Byte := 0xAA#8

/-- `PREAMBLE_2` (R9, R110). -/
abbrev preamble2 : Byte := 0x55#8

/-- `MAX_PAYLOAD` (R9). -/
abbrev maxPayload : Nat := 127

/-- `MAX_PAGE` (R9). -/
abbrev maxPage : Nat := 1024

/-- The byte `/` that divides product tag and build in the application data (42_dfu_engine.md R201). -/
abbrev slash : Byte := 0x2F#8

/-- The longest `data` of a port request (R100). -/
abbrev maxData : Nat := 65535

/-- The size of RXP in cells (20_memory.md R70). -/
abbrev rxpSize : Nat := 127

end Config

/-- The constraints R9, R74, R115 and R116 put on a configuration, in that order: the capacity; the command codes
distinct, one contiguous block, disjoint from `FORWARD_SET`; the status codes distinct; the flash geometry; no slash in
the product tag; digests of 32 bytes. -/
abbrev Params.Valid (p : Params) : Prop :=
  (2 ≤ p.rbCapacity ∧ p.rbCapacity ≤ 65535) ∧
  (p.cmd.all.Nodup ∧ (∀ c ∈ p.cmd.all, ∀ d ∈ p.cmd.all, c.toNat ≤ d.toNat + 12) ∧ ∀ c ∈ p.cmd.all, c ∉ p.forwardSet) ∧
  p.status.all.Nodup ∧
  (1 ≤ p.flashWordBytes ∧ p.flashBase.toNat % p.flashWordBytes = 0 ∧ p.flashRegionSize % p.flashWordBytes = 0 ∧
    p.flashRegionSize + Config.maxPage < 2 ^ 32) ∧
  Config.slash ∉ p.productTag ∧
  ∀ e ∈ p.sha256Known, e.2.length = 32

namespace Config

/-- `CRC16_FN` where no table entry gives its value (OPEN, 20_memory.md R80; log 3). -/
opaque freeCrc16 : Bytes → BitVec 16

/-- `CRC32_FN` where no table entry gives its value (OPEN, R80; log 3). -/
opaque freeCrc32 : Bytes → BitVec 32

/-- `SHA256_FN` where no table entry gives its value: byte `i` of the digest in the standard output order
(R80, PRESUMED by the spec as its general knowledge G1; log 4). -/
opaque freeSha256 : Bytes → Fin 32 → Byte

/-- `TxOutcome` draws (R10; log 5). -/
opaque freeTxOutcome : Nat → TxOutcome

/-- `FlashOutcome` draws (R10; log 5). -/
opaque freeFlashOutcome : Nat → FlashOutcome

/-- `FlashJunk` draws (R10; log 5). -/
opaque freeFlashJunk : Nat → Byte

/-- What FLASH holds at first power-up, by offset from `FLASH_BASE`: any bytes (R53, R74; log 13). -/
opaque flashPowerUp : Nat → Byte

/-- What an RXP cell that nothing wrote gives when read, which no reachable state does (R72, 93 U12; log 12). -/
opaque rxpUnwritten : Nat → Byte

/-- The configuration of the machine, of which nothing is known but that it is valid. The argument only shows that a
valid configuration exists. -/
opaque openParams [Inhabited {p : Params // p.Valid}] : {p : Params // p.Valid}

/-- A valid configuration: the evidence that `Params.Valid` can be met, used for nothing else. -/
def someValid : {p : Params // p.Valid} :=
  ⟨{ rbCapacity := 2, fullMode := .reserveSlot, resyncReexamine := false,
     cmd := ⟨0, 1, 2, 3, 4, 5, 6, 7, 8, 9, 10, 11, 12⟩, forwardSet := [], status := ⟨0, 1, 2, 3, 4, 5, 6⟩,
     flashBase := 0, flashRegionSize := 0, flashWordBytes := 1, erasedValue := 0,
     bypassToken := [], productTag := [], runningBuild := [],
     crc16Known := [], crc32Known := [], sha256Known := [] }, by decide⟩

/-- The configuration at `State.reset`: uninterpreted but for the two modes, which have the default the spec gives them
in R9 (log 1, log 2). -/
def params : Params :=
  { (@openParams ⟨someValid⟩).val with fullMode := .reserveSlot, resyncReexamine := false }

end Config

/-- A finite table's entry for a byte string, if it has one. -/
def tableEntry {α : Type} (t : List (Bytes × α)) (s : Bytes) : Option α :=
  match t.find? (fun e => e.1 == s) with
  | some e => some e.2
  | none => none

/-- `CRC16_FN` (R80). -/
def Params.crc16 (p : Params) (s : Bytes) : BitVec 16 :=
  (tableEntry p.crc16Known s).getD (Config.freeCrc16 s)

/-- `CRC32_FN` (R80). -/
def Params.crc32 (p : Params) (s : Bytes) : BitVec 32 :=
  (tableEntry p.crc32Known s).getD (Config.freeCrc32 s)

/-- `SHA256_FN` (R80). -/
def Params.sha256 (p : Params) (s : Bytes) : Bytes :=
  (tableEntry p.sha256Known s).getD (List.ofFn (Config.freeSha256 s))

end Sys2Proof
end

