-- ==== Sys2Proof/Syntax.lean ====
section
/-! DEFINITION. Syntax.lean: the agents, the instructions (one constructor per row of spec/opcode_table.json) and the
two encoded forms they have: a port request and a frame (30_encoding.md). -/

namespace Sys2Proof

/-- The three agents that issue port operations (00_scope.md R8). -/
inductive Agent where
  | producer
  | consumer
  | host
  deriving DecidableEq, Repr

/-- The instructions: the port operations of R101, the reserved selectors of R103, the seven frame codes the block
receives (R115) with their payload, and the two dispatch classes of R180. An operand is kept as the request or the frame
carries it; what is out of an operation's range is for its meaning to refuse (R103). -/
inductive Instr where
  | rbInit (capacity : BitVec 16)
  | rbIsEmpty
  | rbDataLen
  | rbQueueBytes (data : Bytes)
  | rbDequeueByte
  | rbSetWriteIndex (value : BitVec 16)
  | rbIncrementReadIndex (n : BitVec 16)
  | rbGetMaxContiguousSlice
  | rbArrayWrite (index : BitVec 16) (data : Bytes)
  | rbArrayRead (index : BitVec 16)
  | frPoll
  | frSend (a : BitVec 16) (payload : Bytes)
  | dfuStateCheck
  | reservedD
  /-- `odd` is bit 16 of the request word: selector 0xF rather than 0xE. -/
  | reservedEF (odd : Bool)
  | initReq (payload : Bytes)
  | statusReq (payload : Bytes)
  | pageCreateReq (payload : Bytes)
  | writeDataEvt (payload : Bytes)
  | pageStoreReq (payload : Bytes)
  | stateCheckResp (payload : Bytes)
  | cancelResp (payload : Bytes)
  | fwd (cmd : Byte) (payload : Bytes)
  | ignore (cmd : Byte) (payload : Bytes)
  deriving DecidableEq, Repr

/-- The rows of the dispatch table R180. -/
inductive FrameClass where
  | initReq
  | statusReq
  | pageCreateReq
  | writeDataEvt
  | pageStoreReq
  | stateCheckResp
  | cancelResp
  | fwd
  | ignore
  deriving DecidableEq, Repr

/-- What an instruction is encoded as: the 20-bit request word with the data beside it (R100), or the bytes of a frame
(R110). -/
inductive Encoding where
  | port (word : BitVec 20) (data : Bytes)
  | frame (bytes : Bytes)
  deriving DecidableEq, Repr

/-- Why an encoding is no instruction: the data of a request is longer than R100 allows; a frame ends before its last
byte; one of its first two bytes is not the preamble's; its length byte is above `MAX_PAYLOAD`; its CRC does not match
(R110–R113); bytes are left after it. -/
inductive DecodeError where
  | dataTooLong
  | truncated
  | badPreamble
  | lengthTooLong
  | crcMismatch
  | trailingBytes
  deriving DecidableEq, Repr

end Sys2Proof
end

