-- ==== Sys2Proof/Machine/State.lean ====
section
/-! DEFINITION. State.lean: everything 10_state.md gives the block, as plain data, with the model's own four fields
(`cfg`, `draws`, `inbox`, `result`) beside it, the reasons a step can stop, and the state after reset. -/

namespace Sys2Proof.Machine

/-- The bytes of a memory space: (index, byte) pairs, indices strictly rising, none equal to what an unlisted index
reads as (`Space.unlisted`). -/
abbrev Memory := List Host.Cell

/-- The four memory spaces (20_memory.md R70). FLASH is indexed by the offset from `FLASH_BASE` (R74). -/
inductive Space where
  | rba
  | rxp
  | pbuf
  | flash
  deriving DecidableEq, Repr

/-- What an index reads as that no entry lists: nothing ("unwritten") in RBA, RXP and FLASH, 0x00 in PBUF, which
`ResetSession` zeroes (R53, R70, R73). -/
def Space.unlisted : Space → Option Byte
  | .rba => none
  | .rxp => none
  | .pbuf => some 0#8
  | .flash => none

/-- The ring buffer's registers and its backing array RBA (10_state.md R31–R33, 20_memory.md R71). -/
structure RingBuffer where
  init : Bool
  cap : BitVec 16
  wr : BitVec 16
  rd : BitVec 16
  rba : Memory
  deriving DecidableEq, Repr

/-- The frame receiver's registers and its payload buffer RXP (R37, R38, R72). -/
structure Receiver where
  pos : BitVec 8
  len : BitVec 8
  cmd : Byte
  crcLo : Byte
  rxp : Memory
  deriving DecidableEq, Repr

/-- The receive states of R37. -/
inductive RxState where
  | waitPreamble1
  | waitPreamble2
  | waitLength
  | waitCommand
  | waitPayload
  | waitCrcLow
  | waitCrcHigh
  deriving DecidableEq, Repr

/-- The DFU session and its page buffer PBUF (R39–R42, R73). -/
structure Session where
  inProgress : Bool
  firmwareSize : BitVec 32
  firmwareOffset : BitVec 32
  expectedSha256 : Bytes
  pageSize : BitVec 16
  pageOffset : BitVec 16
  pbuf : Memory
  deriving DecidableEq, Repr

/-- The values `ResetSession` writes (R44). -/
def Session.initial : Session :=
  { inProgress := false, firmwareSize := 0, firmwareOffset := 0, expectedSha256 := List.replicate 32 0#8,
    pageSize := 0, pageOffset := 0, pbuf := [] }

/-- The model fault codes (60_exceptions.md R262). -/
inductive FaultCode where
  | rbNotInitialised
  | rbFullAmbiguous
  | rbProducerOverrun
  | rbConsumerOveradvance
  | rbBadIndex
  | rbUnwrittenRead
  | refusedOpcode
  | refusedOperand
  deriving DecidableEq, Repr

/-- The set `blk.faults` as one sticky bit per code (R46, R262). -/
structure FaultBits where
  rbNotInitialised : Bool
  rbFullAmbiguous : Bool
  rbProducerOverrun : Bool
  rbConsumerOveradvance : Bool
  rbBadIndex : Bool
  rbUnwrittenRead : Bool
  refusedOpcode : Bool
  refusedOperand : Bool
  deriving DecidableEq, Repr

/-- The empty set. -/
def FaultBits.none : FaultBits := ⟨false, false, false, false, false, false, false, false⟩

/-- The block-wide state (R45, R46). -/
structure Block where
  halted : Bool
  faults : FaultBits
  deriving DecidableEq, Repr

/-- The output logs (R47–R49). -/
structure Logs where
  tx : List Bytes
  fwd : List (Byte × Bytes)
  commit : List Nat
  deriving DecidableEq, Repr

/-- The oracles' answers (R10): the answers the environment has already fixed, taken first to last, and after them free
values indexed by a counter (the model's own field, log 5). -/
structure Draws where
  tx : List TxOutcome
  flash : List FlashOutcome
  junk : Bytes
  count : Nat
  deriving DecidableEq, Repr

/-- A port operation request (30_encoding.md R100) with the agent that issues it (00_scope.md R8). -/
structure Request where
  agent : Agent
  word : BitVec 20
  data : Bytes
  deriving DecidableEq, Repr

/-- What the environment does to the block: a port request of an agent, or the external reset (R280). -/
inductive Event where
  | request (r : Request)
  | reset
  deriving DecidableEq, Repr

/-- The value a port operation returns to its agent (R101): nothing, a boolean, a u16, a byte, a byte or none, an index
with a length. -/
inductive Result where
  | nothing
  | bool (b : Bool)
  | half (v : BitVec 16)
  | byte (b : Byte)
  | optByte (b : Option Byte)
  | slice (index length : BitVec 16)
  deriving DecidableEq, Repr

/-- The state of the block. `cfg` is the configuration, which no step writes (R30, log 1); `draws`, `inbox` and `result`
are the model's own fields (logs 5, 6, 16). -/
structure State where
  cfg : Params
  rb : RingBuffer
  fr : Receiver
  dfu : Session
  blk : Block
  flash : Memory
  logs : Logs
  draws : Draws
  inbox : List Event
  result : Result
  deriving DecidableEq, Repr

/-- Why the machine stops. Each is a state with no step of the block, so all are safe. -/
inductive Fault where
  /-- Raised by every meaning while `blk.halted`: no agent has an enabled operation (10_state.md R45, 93 U15). Safe. -/
  | halted
  /-- Raised by the fetch of a request whose agent does not own the operation: it has no step (60_exceptions.md R269).
  Safe. -/
  | notOwner
  /-- Raised by FR_POLL where the receive position lies beyond the states of 10_state.md R37, which no run reaches. Safe. -/
  | noReceiveState
  deriving DecidableEq, Repr

/-- Why a request has no meaning. -/
inductive Refusal where
  /-- An arm of `exec` without a meaning; no arm of this model is one. Safe. -/
  | notModelled (mnemonic : String)
  /-- Raised by the fetch of a request whose data is longer than 30_encoding.md R100 allows: it is no request. Safe. -/
  | requestTooLong
  deriving DecidableEq, Repr

/-- What the fetch finds at the head of the inbox: nothing, an external reset, an instruction to run, or a stop. -/
inductive Fetched where
  | idle
  | reset (s : State)
  | run (i : Instr) (s : State)
  | stop (r : Fault)
  | refuse (r : Refusal)
  deriving DecidableEq, Repr

/-- The state after reset (R53, R280). The values R53 leaves unspecified are `rb.cap`, `rb.wr`, `rb.rd` (DESIGN CHOICE 0,
unsafe, log 10) and `fr.len`, `fr.cmd`, `fr.crcLo` (DESIGN CHOICE 0, unsafe, log 11); FLASH holds its power-up bytes
(log 13). -/
def State.reset : State :=
  { cfg := Config.params
    rb := { init := false, cap := 0, wr := 0, rd := 0, rba := [] }
    fr := { pos := 0, len := 0, cmd := 0, crcLo := 0, rxp := [] }
    dfu := Session.initial
    blk := { halted := false, faults := FaultBits.none }
    flash := []
    logs := { tx := [], fwd := [], commit := [] }
    draws := { tx := [], flash := [], junk := [], count := 0 }
    inbox := []
    result := .nothing }

end Sys2Proof.Machine
end

