-- ==== Sys2Proof/Machine/Flags.lean ====
section
/-! DEFINITION. Flags.lean: the status values of 10_state.md R35 and R50, the receive state of R37, and the sticky fault
bits: raising a model fault (60_exceptions.md R260–R262). -/

namespace Sys2Proof.Machine

/-- `(a − b) mod c` with the non-negative remainder of 00_scope.md R12. -/
def modSub (a b c : Nat) : Nat := (((a : Int) - (b : Int)) % (c : Int)).toNat

/-- `C`, the capacity (R32). -/
def capacity (s : State) : Nat := s.rb.cap.toNat

/-- `occ`, the source's `dataLen()` (R35). -/
def occ (s : State) : Nat := modSub s.rb.wr.toNat s.rb.rd.toNat (capacity s)

/-- `empty`, the source's `isEmpty()` (R35). -/
def isEmpty (s : State) : Bool := decide (s.rb.wr = s.rb.rd)

/-- `limit`: the most bytes the buffer may hold (40_ring_buffer.md, header). -/
def limit (s : State) : Nat :=
  match s.cfg.fullMode with
  | .reserveSlot => capacity s - 1
  | .verbatim => capacity s

/-- Is index `i` an occupied slot (R36)? -/
def occupied (s : State) (i : Nat) : Bool := decide (modSub i s.rb.rd.toNat (capacity s) < occ s)

/-- The receive state at a byte position under a declared length (R37); none beyond the frame's last byte. -/
def rxStateAt (pos len : Nat) : Option RxState :=
  if pos = 0 then some .waitPreamble1
  else if pos = 1 then some .waitPreamble2
  else if pos = 2 then some .waitLength
  else if pos = 3 then some .waitCommand
  else if pos < 4 + len then some .waitPayload
  else if pos = 4 + len then some .waitCrcLow
  else if pos = 5 + len then some .waitCrcHigh
  else none

/-- The receive state of the receiver (R37). -/
def rxState (s : State) : Option RxState := rxStateAt s.fr.pos.toNat s.fr.len.toNat

/-- Is the code in the set (R46)? -/
def hasFault (f : FaultBits) : FaultCode → Bool
  | .rbNotInitialised => f.rbNotInitialised
  | .rbFullAmbiguous => f.rbFullAmbiguous
  | .rbProducerOverrun => f.rbProducerOverrun
  | .rbConsumerOveradvance => f.rbConsumerOveradvance
  | .rbBadIndex => f.rbBadIndex
  | .rbUnwrittenRead => f.rbUnwrittenRead
  | .refusedOpcode => f.refusedOpcode
  | .refusedOperand => f.refusedOperand

/-- The set with a code added (R46). -/
def addFault (c : FaultCode) (f : FaultBits) : FaultBits :=
  match c with
  | .rbNotInitialised => { f with rbNotInitialised := true }
  | .rbFullAmbiguous => { f with rbFullAmbiguous := true }
  | .rbProducerOverrun => { f with rbProducerOverrun := true }
  | .rbConsumerOveradvance => { f with rbConsumerOveradvance := true }
  | .rbBadIndex => { f with rbBadIndex := true }
  | .rbUnwrittenRead => { f with rbUnwrittenRead := true }
  | .refusedOpcode => { f with refusedOpcode := true }
  | .refusedOperand => { f with refusedOperand := true }

/-- The number of a code (R262). -/
def faultNumber : FaultCode → Nat
  | .rbNotInitialised => 1
  | .rbFullAmbiguous => 2
  | .rbProducerOverrun => 3
  | .rbConsumerOveradvance => 4
  | .rbBadIndex => 5
  | .rbUnwrittenRead => 6
  | .refusedOpcode => 7
  | .refusedOperand => 8

/-- `raise Fault(c)` (00_scope.md R14, 60_exceptions.md R260): the sticky bit, nothing else. -/
def raiseFault (c : FaultCode) (s : State) : State :=
  { s with blk := { s.blk with faults := addFault c s.blk.faults } }

end Sys2Proof.Machine
end

