-- ==== Sys2Proof/WellFormed.lean ====
section
/-! DEFINITION. WellFormed.lean: which instructions a request or a frame can carry (30_encoding.md R100, R110, R115). -/

namespace Sys2Proof

/-- A byte string that can stand beside a request word (R100). -/
def dataFits (data : Bytes) : Bool := decide (data.length ≤ Config.maxData)

/-- A byte string a frame can carry (R110). -/
def payloadFits (payload : Bytes) : Bool := decide (payload.length ≤ Config.maxPayload)

/-- The seven command codes the block receives (R115). -/
def receiveCodes (p : Params) : List Byte :=
  [p.cmd.initReq, p.cmd.statusReq, p.cmd.pageCreateReq, p.cmd.writeDataEvt, p.cmd.pageStoreReq, p.cmd.stateCheckResp,
   p.cmd.cancelResp]

/-- The data of a request and the payload of a frame have a length their form can carry; a forwarded command is one of
`FORWARD_SET`, an ignored one neither a receive code nor one of `FORWARD_SET` (R180). An operand that its operation
refuses (R103) is no ill-formed instruction: the block answers it. -/
def wellFormed (p : Params) (i : Instr) : Bool :=
  match i with
  | .rbInit _ => true
  | .rbIsEmpty => true
  | .rbDataLen => true
  | .rbQueueBytes data => dataFits data
  | .rbDequeueByte => true
  | .rbSetWriteIndex _ => true
  | .rbIncrementReadIndex _ => true
  | .rbGetMaxContiguousSlice => true
  | .rbArrayWrite _ data => dataFits data
  | .rbArrayRead _ => true
  | .frPoll => true
  | .frSend _ payload => dataFits payload
  | .dfuStateCheck => true
  | .reservedD => true
  | .reservedEF _ => true
  | .initReq pl => payloadFits pl
  | .statusReq pl => payloadFits pl
  | .pageCreateReq pl => payloadFits pl
  | .writeDataEvt pl => payloadFits pl
  | .pageStoreReq pl => payloadFits pl
  | .stateCheckResp pl => payloadFits pl
  | .cancelResp pl => payloadFits pl
  | .fwd cmd pl => payloadFits pl && decide (cmd ∈ p.forwardSet)
  | .ignore cmd pl => payloadFits pl && decide (cmd ∉ receiveCodes p) && decide (cmd ∉ p.forwardSet)

end Sys2Proof
end

