-- ==== Sys2Proof/Decode.lean ====
section
/-! DEFINITION. Decode.lean: byte order, the decoder of port requests and of frames, total and rejecting by name, and
after it the encoder (30_encoding.md). -/

namespace Sys2Proof

/-- Byte `i` of a byte string; 0 beyond its end, where no layout reads it. -/
def byteAt (s : Bytes) (i : Nat) : Byte := s.getD i 0

/-- `s[i .. j)` (R13). -/
def slice (s : Bytes) (i j : Nat) : Bytes := (s.drop i).take (j - i)

/-- `le16(v)` (R13). -/
def le16 (v : BitVec 16) : Bytes := [v.extractLsb' 0 8, v.extractLsb' 8 8]

/-- `le32(v)` (R13). -/
def le32 (v : BitVec 32) : Bytes :=
  [v.extractLsb' 0 8, v.extractLsb' 8 8, v.extractLsb' 16 8, v.extractLsb' 24 8]

/-- A 16-bit value from its low and high byte (R111, R177). -/
def ofLe16 (lo hi : Byte) : BitVec 16 := hi ++ lo

/-- `rdle32(s, i)` (R13). -/
def rdle32 (s : Bytes) (i : Nat) : BitVec 32 :=
  byteAt s (i + 3) ++ byteAt s (i + 2) ++ byteAt s (i + 1) ++ byteAt s i

/-! ### Port requests (R100–R103) -/

/-- The selector `op`, bits 19:16 of a request word (R100). -/
def requestOp (w : BitVec 20) : Nat := (w.extractLsb' 16 4).toNat

/-- The operand `a`, bits 15:0 of a request word (R100). -/
def requestA (w : BitVec 20) : BitVec 16 := w.extractLsb' 0 16

/-- The operation of a request (R101), its operands taken as R102 says. -/
def selectPort (w : BitVec 20) (data : Bytes) : Instr :=
  match requestOp w with
  | 0 => .rbInit (requestA w)
  | 1 => .rbIsEmpty
  | 2 => .rbDataLen
  | 3 => .rbQueueBytes data
  | 4 => .rbDequeueByte
  | 5 => .rbSetWriteIndex (requestA w)
  | 6 => .rbIncrementReadIndex (requestA w)
  | 7 => .rbGetMaxContiguousSlice
  | 8 => .rbArrayWrite (requestA w) data
  | 9 => .rbArrayRead (requestA w)
  | 10 => .frPoll
  | 11 => .frSend (requestA w) data
  | 12 => .dfuStateCheck
  | 13 => .reservedD
  | 14 => .reservedEF false
  | _ => .reservedEF true

/-- A port request: total on request words; longer data than R100 allows is no request. -/
def decodePort (w : BitVec 20) (data : Bytes) : Except DecodeError Instr :=
  if data.length ≤ Config.maxData then .ok (selectPort w data) else .error .dataTooLong

/-! ### Frames (R110–R113, R180) -/

/-- The byte string the CRC covers (R111, R179). -/
def crcInput (cmd : Byte) (payload : Bytes) : Bytes := BitVec.ofNat 8 payload.length :: cmd :: payload

/-- The row of the dispatch table that a command byte selects (R180). -/
def classify (p : Params) (cmd : Byte) : FrameClass :=
  if cmd = p.cmd.code .initReq then .initReq
  else if cmd = p.cmd.code .statusReq then .statusReq
  else if cmd = p.cmd.code .pageCreateReq then .pageCreateReq
  else if cmd = p.cmd.code .writeDataEvt then .writeDataEvt
  else if cmd = p.cmd.code .pageStoreReq then .pageStoreReq
  else if cmd = p.cmd.code .stateCheckResp then .stateCheckResp
  else if cmd = p.cmd.code .cancelResp then .cancelResp
  else if cmd ∈ p.forwardSet then .fwd
  else .ignore

/-- The instruction of a row of the dispatch table. -/
def frameInstr (k : FrameClass) (cmd : Byte) (payload : Bytes) : Instr :=
  match k with
  | .initReq => .initReq payload
  | .statusReq => .statusReq payload
  | .pageCreateReq => .pageCreateReq payload
  | .writeDataEvt => .writeDataEvt payload
  | .pageStoreReq => .pageStoreReq payload
  | .stateCheckResp => .stateCheckResp payload
  | .cancelResp => .cancelResp payload
  | .fwd => .fwd cmd payload
  | .ignore => .ignore cmd payload

/-- The instruction of a valid frame with this command and payload. -/
def selectFrame (p : Params) (cmd : Byte) (payload : Bytes) : Instr :=
  frameInstr (classify p cmd) cmd payload

/-- A frame's body after its length byte `l`: command, `l` payload bytes, the CRC; the instruction and the bytes after
the frame (R110–R112). -/
def decodeBody (p : Params) (l : Nat) (cmd : Byte) (rest : Bytes) : Except DecodeError (Instr × Bytes) :=
  if rest.length < l + 2 then .error .truncated
  else if ofLe16 (byteAt rest l) (byteAt rest (l + 1)) = p.crc16 (crcInput cmd (rest.take l)) then
    .ok (selectFrame p cmd (rest.take l), rest.drop (l + 2))
  else .error .crcMismatch

/-- The frame at the start of a byte string, total on any bytes (R110–R113). -/
def decodeFrame (p : Params) (bytes : Bytes) : Except DecodeError (Instr × Bytes) :=
  match bytes with
  | b0 :: b1 :: len :: cmd :: rest =>
    if b0 = Config.preamble1 ∧ b1 = Config.preamble2 then
      if len.toNat ≤ Config.maxPayload then decodeBody p len.toNat cmd rest else .error .lengthTooLong
    else .error .badPreamble
  | _ => .error .truncated

/-- The instruction of an encoding. -/
def decode (p : Params) (e : Encoding) : Except DecodeError Instr :=
  match e with
  | .port w data => decodePort w data
  | .frame bytes =>
    match decodeFrame p bytes with
    | .ok (i, []) => .ok i
    | .ok (_, _ :: _) => .error .trailingBytes
    | .error r => .error r

/-! ### The encoder -/

/-- The request word of a selector and an operand (R100). -/
def requestWord (op : Nat) (a : BitVec 16) : BitVec 20 := BitVec.ofNat 4 op ++ a

/-- The frame of a command and a payload (R110, R111, R181). -/
def buildFrame (p : Params) (cmd : Byte) (payload : Bytes) : Bytes :=
  [Config.preamble1, Config.preamble2, BitVec.ofNat 8 payload.length, cmd] ++ payload
    ++ le16 (p.crc16 (crcInput cmd payload))

/-- The encoding of an instruction; an operand the operation does not take is 0 (R100, R110). -/
def encode (p : Params) (i : Instr) : Encoding :=
  match i with
  | .rbInit c => .port (requestWord 0 c) []
  | .rbIsEmpty => .port (requestWord 1 0) []
  | .rbDataLen => .port (requestWord 2 0) []
  | .rbQueueBytes data => .port (requestWord 3 0) data
  | .rbDequeueByte => .port (requestWord 4 0) []
  | .rbSetWriteIndex v => .port (requestWord 5 v) []
  | .rbIncrementReadIndex n => .port (requestWord 6 n) []
  | .rbGetMaxContiguousSlice => .port (requestWord 7 0) []
  | .rbArrayWrite a data => .port (requestWord 8 a) data
  | .rbArrayRead a => .port (requestWord 9 a) []
  | .frPoll => .port (requestWord 10 0) []
  | .frSend a payload => .port (requestWord 11 a) payload
  | .dfuStateCheck => .port (requestWord 12 0) []
  | .reservedD => .port (requestWord 13 0) []
  | .reservedEF odd => .port (requestWord (if odd then 15 else 14) 0) []
  | .initReq pl => .frame (buildFrame p (p.cmd.code .initReq) pl)
  | .statusReq pl => .frame (buildFrame p (p.cmd.code .statusReq) pl)
  | .pageCreateReq pl => .frame (buildFrame p (p.cmd.code .pageCreateReq) pl)
  | .writeDataEvt pl => .frame (buildFrame p (p.cmd.code .writeDataEvt) pl)
  | .pageStoreReq pl => .frame (buildFrame p (p.cmd.code .pageStoreReq) pl)
  | .stateCheckResp pl => .frame (buildFrame p (p.cmd.code .stateCheckResp) pl)
  | .cancelResp pl => .frame (buildFrame p (p.cmd.code .cancelResp) pl)
  | .fwd cmd pl => .frame (buildFrame p cmd pl)
  | .ignore cmd pl => .frame (buildFrame p cmd pl)

/-! ### Ownership (00_scope.md R8, R101) -/

/-- The agent that owns an operation; none where any agent may issue it. The frames run in CONSUMER's FR_POLL. -/
def owner (i : Instr) : Option Agent :=
  match i with
  | .rbInit _ => some .host
  | .rbIsEmpty => some .consumer
  | .rbDataLen => some .consumer
  | .rbQueueBytes _ => some .producer
  | .rbDequeueByte => some .consumer
  | .rbSetWriteIndex _ => some .producer
  | .rbIncrementReadIndex _ => some .consumer
  | .rbGetMaxContiguousSlice => some .consumer
  | .rbArrayWrite _ _ => some .producer
  | .rbArrayRead _ => some .consumer
  | .frPoll => some .consumer
  | .frSend _ _ => some .host
  | .dfuStateCheck => some .host
  | .reservedD => none
  | .reservedEF _ => none
  | .initReq _ => some .consumer
  | .statusReq _ => some .consumer
  | .pageCreateReq _ => some .consumer
  | .writeDataEvt _ => some .consumer
  | .pageStoreReq _ => some .consumer
  | .stateCheckResp _ => some .consumer
  | .cancelResp _ => some .consumer
  | .fwd _ _ => some .consumer
  | .ignore _ _ => some .consumer

/-- Does this agent own this operation? -/
def owns (g : Agent) (i : Instr) : Bool :=
  match owner i with
  | none => true
  | some o => o == g

/-! ### The opcode table's numbering of the bits -/

/-- The bytes of the frame whose first four bytes are the 32-bit number `w`, most significant byte first (R130), with a
payload of zeros as long as its length byte says and the CRC that R111 gives it (log 18). -/
def tableFrame (p : Params) (w : Nat) : Bytes :=
  let head := BitVec.ofNat 32 w
  let len := head.extractLsb' 8 8
  let cmd := head.extractLsb' 0 8
  let payload := List.replicate len.toNat 0#8
  [head.extractLsb' 24 8, head.extractLsb' 16 8, len, cmd] ++ payload
    ++ le16 (p.crc16 (len :: cmd :: payload))

/-- The instruction the decoder reads from an opcode-table word: a request word where the number has at most 20 bits and
the row at least 17, the first four bytes of a frame where the row has 32 (log 18). -/
def decodeTableWord (nbits w : Nat) : Option Instr :=
  if 16 < nbits ∧ w < 2 ^ 20 then
    match decode Config.params (.port (BitVec.ofNat 20 w) []) with
    | .ok i => some i
    | .error _ => none
  else
    match decode Config.params (.frame (tableFrame Config.params w)) with
    | .ok i => some i
    | .error _ => none

end Sys2Proof
end

