-- ==== Sys2Proof/Machine/Operands.lean ====
section
/-! DEFINITION. Operands.lean: the operand forms: the operands of a port request that R103 bounds, and the payload
layouts of the DFU frames (30_encoding.md R120–R128); `none` is a malformed payload (42_dfu_engine.md R200). -/

namespace Sys2Proof.Machine

/-- RB_ARRAY_WRITE's byte: `data[0]` where `len(data) = 1`, else out of range (R102, R103). -/
def arrayWriteByte (data : Bytes) : Option Byte :=
  match data with
  | [b] => some b
  | _ => none

/-- FR_SEND's command: `a[7:0]` where `a[15:8] = 0`, else out of range (R102, R103). -/
def sendCommand (a : BitVec 16) : Option Byte :=
  if a.extractLsb' 8 8 = 0#8 then some (a.extractLsb' 0 8) else none

/-- The declared image size of an INIT_REQ payload (R120, R202). -/
def initSize (p : Bytes) : BitVec 32 := rdle32 p 0

/-- The digest of an INIT_REQ payload, un-reversed (R121, R202). -/
def initDigest (p : Bytes) : Bytes := (slice p 4 36).reverse

/-- The application data of an INIT_REQ payload (R120, R202). -/
def initApp (p : Bytes) : Bytes := slice p 37 (37 + (byteAt p 36).toNat)

/-- Is an INIT_REQ payload well-formed (R120)? -/
def initWellFormed (p : Bytes) : Bool :=
  decide (37 ≤ p.length) && decide (37 + (byteAt p 36).toNat ≤ p.length)

/-- The requested size of a PAGE_CREATE_REQ payload (R125). -/
def requestedSize (p : Bytes) : Option (BitVec 32) := if 4 ≤ p.length then some (rdle32 p 0) else none

/-- The chunk of a WRITE_DATA_EVT payload (R126). -/
def writeChunk (p : Bytes) : Option Bytes :=
  if 1 ≤ p.length ∧ 1 + (byteAt p 0).toNat ≤ p.length then some (slice p 1 (1 + (byteAt p 0).toNat)) else none

/-- The peer's flag in a STATE_CHECK_RESP payload (R128). -/
def peerInProgress (p : Bytes) : Option Bool := if 1 ≤ p.length then some (decide (byteAt p 0 ≠ 0#8)) else none

end Sys2Proof.Machine
end

