-- ==== Sys2Proof/Machine/Ops.lean ====
section
/-! DEFINITION. Ops.lean: the named operations over memory, registers and logs, the draws, the frame encoder with the
response helpers, the flash interface, the session reset and the external reset. Raising a model fault and refusing a
request (60_exceptions.md R260, R261), which the block has in place of taking an exception, stand in Flags.lean. -/

namespace Sys2Proof.Machine

/-! ### Memory -/

/-- Bytes laid from an index upwards. -/
def cellsFrom (a : Nat) : Bytes → Memory
  | [] => []
  | b :: bs => (a, b) :: cellsFrom (a + 1) bs

/-- `MemRead(space, a, 1)` (00_scope.md R14); `none` is an unwritten cell. -/
def memRead (sp : Space) (m : Memory) (a : Nat) : Option Byte :=
  match m.find? (fun c => c.1 == a) with
  | some c => some c.2
  | none => sp.unlisted

/-- `MemWrite(space, a, len(bs), bs)` (R14), keeping the canonical form. -/
def memWrite (sp : Space) (m : Memory) (a : Nat) (bs : Bytes) : Memory :=
  m.filter (fun c => decide (c.1 < a))
    ++ (cellsFrom a bs).filter (fun c => decide (some c.2 ≠ sp.unlisted))
    ++ m.filter (fun c => decide (a + bs.length ≤ c.1))

/-- The canonical form: indices strictly rising, no entry equal to what an unlisted index reads as. -/
abbrev Memory.wf (sp : Space) (m : Memory) : Prop :=
  m.Pairwise (fun x y => x.1 < y.1) ∧ ∀ c ∈ m, some c.2 ≠ sp.unlisted

/-- The memory of a space. -/
def State.memory (s : State) : Space → Memory
  | .rba => s.rb.rba
  | .rxp => s.fr.rxp
  | .pbuf => s.dfu.pbuf
  | .flash => s.flash

/-- One cell of a space. -/
def State.cell (s : State) (sp : Space) (a : Nat) : Option Byte := memRead sp (s.memory sp) a

/-- `n` bytes of a space from index `a`; `free` gives a cell that nothing wrote. -/
def memBytes (sp : Space) (m : Memory) (a n : Nat) (free : Nat → Byte) : Bytes :=
  (List.range n).map (fun k => (memRead sp m (a + k)).getD (free (a + k)))

/-- The payload bytes of the frame being received (20_memory.md R72). Every one was written, so the free value stands in
no run (log 12). -/
def rxPayload (s : State) : Bytes := memBytes .rxp s.fr.rxp 0 s.fr.len.toNat Config.rxpUnwritten

/-- The bytes of the open page, `MemRead(PBUF, 0, dfu.page_offset)` (R73). -/
def pageBytes (s : State) : Bytes := memBytes .pbuf s.dfu.pbuf 0 s.dfu.pageOffset.toNat (fun _ => 0#8)

/-! ### Registers and logs -/

/-- `return v` (R14). -/
def ret (r : Result) (s : State) : State := { s with result := r }

/-- The ring buffer with this read cursor. -/
def setRd (rd : Nat) (s : State) : State := { s with rb := { s.rb with rd := BitVec.ofNat 16 rd } }

/-- The ring buffer with this write cursor. -/
def setWr (wr : Nat) (s : State) : State := { s with rb := { s.rb with wr := BitVec.ofNat 16 wr } }

/-- The ring buffer with this backing array. -/
def setRba (m : Memory) (s : State) : State := { s with rb := { s.rb with rba := m } }

/-- The receiver with these registers. -/
def setFr (f : Receiver) (s : State) : State := { s with fr := f }

/-- The DFU unit with this session. -/
def setDfu (d : Session) (s : State) : State := { s with dfu := d }

/-- The block with this flash contents. -/
def setFlash (m : Memory) (s : State) : State := { s with flash := m }

/-- The block after some draws. -/
def setDraws (d : Draws) (s : State) : State := { s with draws := d }

/-- A frame accepted by the transmit facility (R47). -/
def pushTx (frame : Bytes) (s : State) : State := { s with logs := { s.logs with tx := s.logs.tx ++ [frame] } }

/-- A frame forwarded to the collaborators (R48). -/
def pushFwd (cmd : Byte) (payload : Bytes) (s : State) : State :=
  { s with logs := { s.logs with fwd := s.logs.fwd ++ [(cmd, payload)] } }

/-! ### Draws (00_scope.md R10) -/

/-- Draw a `TxOutcome`. -/
def drawTx (d : Draws) : TxOutcome × Draws :=
  match d.tx with
  | o :: rest => (o, { d with tx := rest })
  | [] => (Config.freeTxOutcome d.count, { d with count := d.count + 1 })

/-- Draw a `FlashOutcome`. -/
def drawFlash (d : Draws) : FlashOutcome × Draws :=
  match d.flash with
  | o :: rest => (o, { d with flash := rest })
  | [] => (Config.freeFlashOutcome d.count, { d with count := d.count + 1 })

/-- Draw one byte of `FlashJunk`. -/
def drawJunkByte (d : Draws) : Byte × Draws :=
  match d.junk with
  | b :: rest => (b, { d with junk := rest })
  | [] => (Config.freeFlashJunk d.count, { d with count := d.count + 1 })

/-- Draw `n` bytes of `FlashJunk`. -/
def drawJunk (n : Nat) (d : Draws) : Bytes × Draws :=
  match n with
  | 0 => ([], d)
  | k + 1 => ((drawJunkByte d).1 :: (drawJunk k (drawJunkByte d).2).1, (drawJunk k (drawJunkByte d).2).2)

/-! ### The encoder and the response helpers -/

/-- `emit(cmd, payload)` (41_frame_codec.md R181): did the transmit facility take the frame, and the state after. -/
def emit (cmd : Byte) (payload : Bytes) (s : State) : Bool × State :=
  if Config.maxPayload < payload.length then (false, s)
  else
    match drawTx s.draws with
    | (.ok, d) => (true, pushTx (buildFrame s.cfg cmd payload) (setDraws d s))
    | (.fail, d) => (false, setDraws d s)

/-- `respond(kind, status)` with its result ignored (R14, 30_encoding.md R122, 42_dfu_engine.md R216). -/
def respond (kind : DfuCmd) (st : Status) (s : State) : State :=
  (emit (s.cfg.cmd.code kind) [s.cfg.status.code st] s).2

/-- `EmitCancel()` (42_dfu_engine.md R215). -/
def emitCancel (s : State) : State := (emit (s.cfg.cmd.code .cancelReq) [] s).2

/-! ### The session and the flash interface (20_memory.md) -/

/-- `ResetSession()` (10_state.md R44). -/
def resetSession (s : State) : State := setDfu Session.initial s

/-- `EraseRegion()` (R76). -/
def eraseRegion (s : State) : State :=
  setFlash (memWrite .flash s.flash 0 (List.replicate s.cfg.flashRegionSize s.cfg.erasedValue)) s

/-- `ceil(a / b)` (00_scope.md R12). -/
def ceilDiv (a b : Nat) : Nat := (a + b - 1) / b

/-- The length of the word-padded range a flash write of `n` bytes covers: `ceil(n / W) · W` (R77). -/
def paddedLength (p : Params) (n : Nat) : Nat := ceilDiv n p.flashWordBytes * p.flashWordBytes

/-- Does the flash layer admit a write of `n` bytes at this address (R77)? The addresses are naturals (log 20). -/
def flashAdmits (p : Params) (addr n : Nat) : Bool :=
  decide (addr % p.flashWordBytes = 0) && decide (addr - p.flashBase.toNat + paddedLength p n ≤ p.flashRegionSize)

/-- The bytes an accepted flash write leaves: the data and the padding of the last word (R77). -/
def paddedData (p : Params) (data : Bytes) : Bytes :=
  data ++ List.replicate (paddedLength p data.length - data.length) p.erasedValue

/-- `FlashWrite(addr, data)` (R77): did it succeed, and the state after. -/
def flashWrite (addr : Nat) (data : Bytes) (s : State) : Bool × State :=
  if flashAdmits s.cfg addr data.length then
    match drawFlash s.draws with
    | (.ok, d) =>
      (true, setFlash (memWrite .flash s.flash (addr - s.cfg.flashBase.toNat) (paddedData s.cfg data)) (setDraws d s))
    | (.fail, d) =>
      (false, setFlash (memWrite .flash s.flash (addr - s.cfg.flashBase.toNat)
        (drawJunk (paddedLength s.cfg data.length) d).1)
        (setDraws (drawJunk (paddedLength s.cfg data.length) d).2 s))
  else (false, s)

/-- `FlashRead(FLASH_BASE, n)` (R78); a byte nothing wrote since first power-up is a free byte (R74, log 13). -/
def flashBytes (s : State) (n : Nat) : Bytes := memBytes .flash s.flash 0 n Config.flashPowerUp

/-- `CommitAndReboot(words)` (R79). -/
def commitAndReboot (words : Nat) (s : State) : State :=
  { s with
    logs := { s.logs with commit := s.logs.commit ++ [words] }
    blk := { s.blk with halted := true } }

/-- `RunningCrc32()` (42_dfu_engine.md R217). -/
def runningCrc32 (s : State) : BitVec 32 := s.cfg.crc32 (flashBytes s s.dfu.firmwareOffset.toNat ++ pageBytes s)

/-! ### Enabling and reset -/

/-- An operation's next state where the block runs; while it is halted no operation is enabled (10_state.md R45). -/
def whenRunning (s t : State) : Host.Outcome State Fault Refusal :=
  if s.blk.halted then .fault .halted else .next t

/-- A ring-buffer operation's next state, given the value it returns while the buffer is uninitialised
(40_ring_buffer.md R140). -/
def whenInitialised (neutral : Result) (s t : State) : State :=
  if s.rb.init then t else ret neutral (raiseFault .rbNotInitialised s)

/-- A refused request: its fault bit, nothing returned, nothing else (60_exceptions.md R261; log 16). -/
def refuseRequest (c : FaultCode) (s : State) : State := ret .nothing (raiseFault c s)

/-- The external reset (70_reset_and_hazards.md R280): every field as after reset, FLASH kept, and with it what is not the
block's: its configuration, the oracles' answers, the environment's further requests (log 9). -/
def externalReset (s : State) : State :=
  { State.reset with cfg := s.cfg, flash := s.flash, draws := s.draws, inbox := s.inbox }

end Sys2Proof.Machine
end

