-- ==== Sys2Proof/Machine/Dfu.lean ====
section
/-! DEFINITION. Dfu.lean: the DFU handlers and DFU_STATE_CHECK (42_dfu_engine.md R200–R217). A handler is total: each of
its outcomes is a protocol outcome (60_exceptions.md R263). -/

namespace Sys2Proof.Machine

/-- What `ValidateApp` answers (R201). -/
inductive AppVerdict where
  | valid
  | invalid
  | upToDate
  deriving DecidableEq, Repr

/-- The part of application data before its first slash (R201). -/
def appTag (app : Bytes) : Bytes := app.takeWhile (fun b => b != Config.slash)

/-- The part of application data after its first slash (R201). -/
def appBuild (app : Bytes) : Bytes := (app.dropWhile (fun b => b != Config.slash)).drop 1

/-- `ValidateApp(app)` (R201). -/
def validateApp (p : Params) (app : Bytes) : AppVerdict :=
  if app = p.bypassToken then .valid
  else if Config.slash ∉ app then .invalid
  else if appTag app ≠ p.productTag then .invalid
  else if appBuild app = p.runningBuild then .upToDate
  else .valid

/-- The session an accepted INIT_REQ opens (R203), over the reset session. -/
def openSession (pl : Bytes) (s : State) : State :=
  setDfu { s.dfu with firmwareSize := initSize pl, expectedSha256 := initDigest pl } s

/-- `dfu.in_progress <- true` (R203). -/
def startSession (s : State) : State := setDfu { s.dfu with inProgress := true } s

/-- An INIT_REQ whose application data is valid (R203): the size test and the erase. -/
def acceptInit (pl : Bytes) (s : State) : State :=
  if s.cfg.flashRegionSize < (initSize pl).toNat then respond .initResp .insufficientResources s
  else startSession (respond .initResp .success (openSession pl (eraseRegion s)))

/-- A well-formed INIT_REQ (R203), the session reset before anything else (90_conflicts.md C2). -/
def handleInit (pl : Bytes) (s : State) : State :=
  match validateApp s.cfg (initApp pl) with
  | .invalid => respond .initResp .invalidObject (resetSession s)
  | .upToDate => respond .initResp .firmwareAlreadyUpToDate (resetSession s)
  | .valid => acceptInit pl (resetSession s)

/-- INIT_REQ's handler (R203). -/
def initReq (pl : Bytes) (s : State) : State := if initWellFormed pl then handleInit pl s else s

/-- The payload of STATUS_RESP (30_encoding.md R124). -/
def statusPayload (s : State) : Bytes :=
  [s.cfg.status.code .success] ++ le32 (BitVec.ofNat 32 Config.maxPage)
    ++ le32 (BitVec.ofNat 32 (s.dfu.firmwareOffset.toNat + s.dfu.pageOffset.toNat)) ++ le32 (runningCrc32 s)

/-- STATUS_REQ's handler (R204). -/
def statusReq (s : State) : State := (emit (s.cfg.cmd.code .statusResp) (statusPayload s) s).2

/-- The page an accepted PAGE_CREATE_REQ opens (R205). -/
def openPage (size : BitVec 32) (s : State) : State :=
  setDfu { s.dfu with pageOffset := 0, pageSize := BitVec.ofNat 16 size.toNat } s

/-- PAGE_CREATE_REQ's handler (R205). -/
def pageCreateReq (pl : Bytes) (s : State) : State :=
  match requestedSize pl with
  | none => s
  | some req =>
    if s.dfu.inProgress = false then emitCancel (respond .pageCreateResp .operationNotPermitted s)
    else if Config.maxPage < req.toNat then respond .pageCreateResp .insufficientResources s
    else respond .pageCreateResp .success (openPage req s)

/-- The page with a chunk appended (R206). -/
def appendChunk (chunk : Bytes) (s : State) : State :=
  setDfu { s.dfu with
    pbuf := memWrite .pbuf s.dfu.pbuf s.dfu.pageOffset.toNat chunk
    pageOffset := BitVec.ofNat 16 (s.dfu.pageOffset.toNat + chunk.length) } s

/-- WRITE_DATA_EVT's handler (R206): a chunk that does not fit is dropped whole. -/
def writeDataEvt (pl : Bytes) (s : State) : State :=
  match writeChunk pl with
  | none => s
  | some chunk =>
    if s.dfu.inProgress = false then emitCancel s
    else if s.dfu.pageOffset.toNat + chunk.length ≤ s.dfu.pageSize.toNat then appendChunk chunk s
    else s

/-- The session after a page is durably written (R208). -/
def advancePage (s : State) : State :=
  setDfu { s.dfu with
    firmwareOffset := BitVec.ofNat 32 (s.dfu.firmwareOffset.toNat + s.dfu.pageOffset.toNat)
    pageOffset := 0
    pageSize := 0 } s

/-- PageStore, success and commit (R211). -/
def commitImage (s : State) : State :=
  commitAndReboot (ceilDiv s.dfu.firmwareSize.toNat s.cfg.flashWordBytes)
    (resetSession (respond .pageStoreResp .firmwareSuccessfullyUpdated s))

/-- PageStore, final verification (R210). -/
def verifyImage (s : State) : State :=
  if s.cfg.sha256 (flashBytes s s.dfu.firmwareSize.toNat) = s.dfu.expectedSha256 then commitImage s
  else resetSession (respond .pageStoreResp .invalidObject s)

/-- PageStore, after a successful write (R209). -/
def afterPageWrite (s : State) : State :=
  if s.dfu.firmwareOffset = s.dfu.firmwareSize then verifyImage s else respond .pageStoreResp .success s

/-- The address the open page is written to (R208). -/
def pageAddress (s : State) : Nat := s.cfg.flashBase.toNat + s.dfu.firmwareOffset.toNat

/-- PageStore, the flash write of a complete page (R208). -/
def storePage (s : State) : State :=
  match flashWrite (pageAddress s) (pageBytes s) s with
  | (true, t) => afterPageWrite (advancePage t)
  | (false, t) => respond .pageStoreResp .operationFailed t

/-- PAGE_STORE_REQ's handler (R207). -/
def pageStoreReq (s : State) : State :=
  if s.dfu.inProgress = false then emitCancel (respond .pageStoreResp .operationNotPermitted s)
  else if s.dfu.pageOffset = 0 then respond .pageStoreResp .success s
  else if s.dfu.pageOffset ≠ s.dfu.pageSize then respond .pageStoreResp .operationNotPermitted s
  else storePage s

/-- STATE_CHECK_RESP's handler (R212). -/
def stateCheckResp (pl : Bytes) (s : State) : State :=
  match peerInProgress pl with
  | none => s
  | some peer => if peer = s.dfu.inProgress then s else emitCancel s

/-- CANCEL_RESP's handler (R213). -/
def cancelResp (s : State) : State := resetSession s

/-- DFU_STATE_CHECK (R214). -/
def dfuStateCheck (s : State) : State :=
  ret (.bool (emit (s.cfg.cmd.code .stateCheckReq) [] s).1) (emit (s.cfg.cmd.code .stateCheckReq) [] s).2

/-- INIT_REQ (R203). -/
def execInitReq (pl : Bytes) (s : State) : Host.Outcome State Fault Refusal := whenRunning s (initReq pl s)

/-- STATUS_REQ (R204): its payload is ignored (R123). -/
def execStatusReq (_pl : Bytes) (s : State) : Host.Outcome State Fault Refusal := whenRunning s (statusReq s)

/-- PAGE_CREATE_REQ (R205). -/
def execPageCreateReq (pl : Bytes) (s : State) : Host.Outcome State Fault Refusal := whenRunning s (pageCreateReq pl s)

/-- WRITE_DATA_EVT (R206). -/
def execWriteDataEvt (pl : Bytes) (s : State) : Host.Outcome State Fault Refusal := whenRunning s (writeDataEvt pl s)

/-- PAGE_STORE_REQ (R207–R211): its payload is ignored (R127). -/
def execPageStoreReq (_pl : Bytes) (s : State) : Host.Outcome State Fault Refusal := whenRunning s (pageStoreReq s)

/-- STATE_CHECK_RESP (R212). -/
def execStateCheckResp (pl : Bytes) (s : State) : Host.Outcome State Fault Refusal := whenRunning s (stateCheckResp pl s)

/-- CANCEL_RESP (R213): its payload is ignored (R129). -/
def execCancelResp (_pl : Bytes) (s : State) : Host.Outcome State Fault Refusal := whenRunning s (cancelResp s)

/-- DFU_STATE_CHECK (R214). -/
def execDfuStateCheck (s : State) : Host.Outcome State Fault Refusal := whenRunning s (dfuStateCheck s)

end Sys2Proof.Machine
end

