-- ==== Sys2Proof/Machine/FrameCodec.lean ====
section
/-! DEFINITION. FrameCodec.lean: the receive step (41_frame_codec.md R171–R178), FR_SEND (R182), and the two dispatch
classes Forward and Ignore (R184, R185). -/

namespace Sys2Proof.Machine

/-- `Mismatch(b)` (R178). -/
def rxMismatch (b : Byte) (s : State) : State :=
  if s.cfg.resyncReexamine = true ∧ b = Config.preamble1 then setFr { s.fr with pos := 1 } s
  else setFr { s.fr with pos := 0 } s

/-- The received CRC matches the computed one (R111, R177, R179). -/
def crcMatches (hi : Byte) (s : State) : Bool :=
  decide (ofLe16 s.fr.crcLo hi = s.cfg.crc16 (s.fr.len :: s.fr.cmd :: rxPayload s))

/-- The receive step in one receive state: the state after, and the frame if one is complete and valid (R171–R177). -/
def rxStepAt (st : RxState) (b : Byte) (s : State) : State × Option (Byte × Bytes) :=
  match st with
  | .waitPreamble1 =>
    (if b = Config.preamble1 then setFr { s.fr with pos := 1 } s else setFr { s.fr with pos := 0 } s, none)
  | .waitPreamble2 => (if b = Config.preamble2 then setFr { s.fr with pos := 2 } s else rxMismatch b s, none)
  | .waitLength =>
    (if b.toNat ≤ Config.maxPayload then setFr { s.fr with len := b, pos := 3 } s else rxMismatch b s, none)
  | .waitCommand => (setFr { s.fr with cmd := b, pos := 4 } s, none)
  | .waitPayload =>
    (setFr { s.fr with rxp := memWrite .rxp s.fr.rxp (s.fr.pos.toNat - 4) [b], pos := s.fr.pos + 1 } s, none)
  | .waitCrcLow => (setFr { s.fr with crcLo := b, pos := s.fr.pos + 1 } s, none)
  | .waitCrcHigh =>
    (setFr { s.fr with pos := 0 } s, if crcMatches b s then some (s.fr.cmd, rxPayload s) else none)

/-- `RxStep(b)`; none where the position is beyond R37's states, which no run reaches (log 17). -/
def rxStep (b : Byte) (s : State) : Option (State × Option (Byte × Bytes)) :=
  match rxState s with
  | some st => some (rxStepAt st b s)
  | none => none

/-- FR_SEND (R182): its operand checked first, then the encoder; it does not depend on `rb.init`. -/
def frSend (a : BitVec 16) (payload : Bytes) (s : State) : State :=
  match sendCommand a with
  | none => refuseRequest .refusedOperand s
  | some cmd => ret (.bool (emit cmd payload s).1) (emit cmd payload s).2

/-- FR_SEND. -/
def execFrSend (a : BitVec 16) (payload : Bytes) (s : State) : Host.Outcome State Fault Refusal :=
  whenRunning s (frSend a payload s)

/-- FWD: Forward (R184). -/
def execFwd (cmd : Byte) (payload : Bytes) (s : State) : Host.Outcome State Fault Refusal :=
  whenRunning s (pushFwd cmd payload s)

/-- IGNORE: no effect of any kind (R185). -/
def execIgnore (_cmd : Byte) (_payload : Bytes) (s : State) : Host.Outcome State Fault Refusal := whenRunning s s

end Sys2Proof.Machine
end

