-- ==== Sys2Proof/Machine/RingBuffer.lean ====
section
/-! DEFINITION. RingBuffer.lean: the ring-buffer operations (40_ring_buffer.md R140–R150). -/

namespace Sys2Proof.Machine

/-- RB_INIT (R141): not gated by `rb.init`, and leaves the receiver alone. -/
def rbInit (c : BitVec 16) (s : State) : State :=
  if c.toNat < 2 then refuseRequest .refusedOperand s
  else ret .nothing { s with rb := { init := true, cap := c, wr := 0, rd := 0, rba := [] } }

/-- RB_INIT. -/
def execRbInit (c : BitVec 16) (s : State) : Host.Outcome State Fault Refusal := whenRunning s (rbInit c s)

/-- RB_IS_EMPTY (R142). -/
def execRbIsEmpty (s : State) : Host.Outcome State Fault Refusal :=
  whenRunning s (whenInitialised (.bool false) s (ret (.bool (isEmpty s)) s))

/-- RB_DATA_LEN (R143). -/
def execRbDataLen (s : State) : Host.Outcome State Fault Refusal :=
  whenRunning s (whenInitialised (.half 0) s (ret (.half (BitVec.ofNat 16 (occ s))) s))

/-- The backing array with bytes laid from index `a` upwards, each index taken modulo `c` (R144). -/
def writeWrapped (c a : Nat) (data : Bytes) (m : Memory) : Memory :=
  match data with
  | [] => m
  | b :: bs => writeWrapped c (a + 1) bs (memWrite .rba m (a % c) [b])

/-- The accepted case of RB_QUEUE_BYTES: the bytes and the write cursor (R144). -/
def appendBytes (data : Bytes) (s : State) : State :=
  setWr ((s.rb.wr.toNat + data.length % capacity s) % capacity s)
    (setRba (writeWrapped (capacity s) s.rb.wr.toNat data s.rb.rba) s)

/-- RB_QUEUE_BYTES in an initialised buffer (R144). -/
def queueBytes (data : Bytes) (s : State) : State :=
  if limit s < data.length + occ s then ret (.bool false) s
  else if s.cfg.fullMode = .verbatim ∧ data.length + occ s = capacity s then
    ret (.bool true) (raiseFault .rbFullAmbiguous (appendBytes data s))
  else ret (.bool true) (appendBytes data s)

/-- RB_QUEUE_BYTES. -/
def execRbQueueBytes (data : Bytes) (s : State) : Host.Outcome State Fault Refusal :=
  whenRunning s (whenInitialised (.bool false) s (queueBytes data s))

/-- The read cursor moved past one byte (R145, R170). -/
def advanceRd (s : State) : State := setRd ((s.rb.rd.toNat + 1) % capacity s) s

/-- RB_DEQUEUE_BYTE in an initialised buffer (R145). -/
def dequeueByte (s : State) : State :=
  if isEmpty s then ret (.optByte none) s
  else
    match s.cell .rba s.rb.rd.toNat with
    | none => ret (.optByte none) (raiseFault .rbUnwrittenRead s)
    | some b => ret (.optByte (some b)) (advanceRd s)

/-- RB_DEQUEUE_BYTE. -/
def execRbDequeueByte (s : State) : Host.Outcome State Fault Refusal :=
  whenRunning s (whenInitialised (.optByte none) s (dequeueByte s))

/-- The bytes a RB_SET_WRITE_INDEX publishes: `k` of R146. -/
def published (v : BitVec 16) (s : State) : Nat :=
  modSub (v.toNat % capacity s) s.rb.wr.toNat (capacity s)

/-- RB_SET_WRITE_INDEX in an initialised buffer (R146): the cursor is written with or without a fault. -/
def setWriteIndex (v : BitVec 16) (s : State) : State :=
  if limit s < occ s + published v s then
    ret .nothing (setWr (v.toNat % capacity s) (raiseFault .rbProducerOverrun s))
  else if s.cfg.fullMode = .verbatim ∧ occ s + published v s = capacity s then
    ret .nothing (setWr (v.toNat % capacity s) (raiseFault .rbFullAmbiguous s))
  else ret .nothing (setWr (v.toNat % capacity s) s)

/-- RB_SET_WRITE_INDEX. -/
def execRbSetWriteIndex (v : BitVec 16) (s : State) : Host.Outcome State Fault Refusal :=
  whenRunning s (whenInitialised .nothing s (setWriteIndex v s))

/-- The read cursor after an advance by `n` (R147). -/
def advancedRd (n : BitVec 16) (s : State) : Nat := (s.rb.rd.toNat + n.toNat % capacity s) % capacity s

/-- RB_INCREMENT_READ_INDEX in an initialised buffer (R147): the cursor moves with or without a fault. -/
def incrementReadIndex (n : BitVec 16) (s : State) : State :=
  if occ s < n.toNat then ret .nothing (setRd (advancedRd n s) (raiseFault .rbConsumerOveradvance s))
  else ret .nothing (setRd (advancedRd n s) s)

/-- RB_INCREMENT_READ_INDEX. -/
def execRbIncrementReadIndex (n : BitVec 16) (s : State) : Host.Outcome State Fault Refusal :=
  whenRunning s (whenInitialised .nothing s (incrementReadIndex n s))

/-- The length of the longest unread run from `rd` that does not wrap (R148). -/
def sliceLength (s : State) : Nat :=
  if s.rb.rd.toNat ≤ s.rb.wr.toNat then s.rb.wr.toNat - s.rb.rd.toNat else capacity s - s.rb.rd.toNat

/-- RB_GET_MAX_CONTIGUOUS_SLICE (R148). -/
def execRbGetMaxContiguousSlice (s : State) : Host.Outcome State Fault Refusal :=
  whenRunning s (whenInitialised (.slice 0 0) s (ret (.slice s.rb.rd (BitVec.ofNat 16 (sliceLength s))) s))

/-- The backing array with one byte placed (R149). -/
def placeByte (i : Nat) (b : Byte) (s : State) : State := setRba (memWrite .rba s.rb.rba i [b]) s

/-- RB_ARRAY_WRITE in an initialised buffer (R149), its operand checked first (R103, R265). -/
def arrayWrite (i : BitVec 16) (data : Bytes) (s : State) : State :=
  match arrayWriteByte data with
  | none => refuseRequest .refusedOperand s
  | some b =>
    if capacity s ≤ i.toNat then ret .nothing (raiseFault .rbBadIndex s)
    else if occupied s i.toNat then ret .nothing (placeByte i.toNat b (raiseFault .rbProducerOverrun s))
    else ret .nothing (placeByte i.toNat b s)

/-- RB_ARRAY_WRITE. -/
def execRbArrayWrite (i : BitVec 16) (data : Bytes) (s : State) : Host.Outcome State Fault Refusal :=
  whenRunning s (whenInitialised .nothing s (arrayWrite i data s))

/-- RB_ARRAY_READ in an initialised buffer (R150). -/
def arrayRead (i : BitVec 16) (s : State) : State :=
  if capacity s ≤ i.toNat then ret (.byte 0) (raiseFault .rbBadIndex s)
  else
    match s.cell .rba i.toNat with
    | none => ret (.byte 0) (raiseFault .rbUnwrittenRead s)
    | some b => ret (.byte b) s

/-- RB_ARRAY_READ. -/
def execRbArrayRead (i : BitVec 16) (s : State) : Host.Outcome State Fault Refusal :=
  whenRunning s (whenInitialised (.byte 0) s (arrayRead i s))

/-- RESERVED_D: refused with REFUSED_OPCODE (30_encoding.md R103). -/
def execReservedD (s : State) : Host.Outcome State Fault Refusal := whenRunning s (refuseRequest .refusedOpcode s)

/-- RESERVED_EF: selectors 0xE and 0xF, refused with REFUSED_OPCODE (R103). -/
def execReservedEF (_odd : Bool) (s : State) : Host.Outcome State Fault Refusal :=
  whenRunning s (refuseRequest .refusedOpcode s)

end Sys2Proof.Machine
end

