-- ==== Sys2Proof/Machine/Poll.lean ====
section
/-! DEFINITION. Poll.lean: FR_POLL, one pass of the polling loop (41_frame_codec.md R170), and Dispatch (R180), which runs
the handler of a valid frame to completion inside it (R183). -/

namespace Sys2Proof.Machine

/-- Run the handler of a dispatch row (R180). -/
def runHandler (k : FrameClass) (cmd : Byte) (payload : Bytes) (s : State) : State :=
  match k with
  | .initReq => initReq payload s
  | .statusReq => statusReq s
  | .pageCreateReq => pageCreateReq payload s
  | .writeDataEvt => writeDataEvt payload s
  | .pageStoreReq => pageStoreReq s
  | .stateCheckResp => stateCheckResp payload s
  | .cancelResp => cancelResp s
  | .fwd => pushFwd cmd payload s
  | .ignore => s

/-- `Dispatch(cmd, payload)` (R180). -/
def dispatchFrame (cmd : Byte) (payload : Bytes) (s : State) : State :=
  runHandler (classify s.cfg cmd) cmd payload s

/-- The state after a receive step, its frame dispatched if it completed one (R170). -/
def finishPoll (r : State × Option (Byte × Bytes)) : State :=
  match r.2 with
  | some f => dispatchFrame f.1 f.2 r.1
  | none => r.1

/-- FR_POLL in a running block with an initialised ring buffer that holds a written byte at `rd` (R170). -/
def pollByte (b : Byte) (s : State) : Host.Outcome State Fault Refusal :=
  match rxStep b (ret .nothing (advanceRd s)) with
  | some r => .next (finishPoll r)
  | none => .fault .noReceiveState

/-- FR_POLL in a running block (R170). -/
def poll (s : State) : Host.Outcome State Fault Refusal :=
  if s.rb.init = false then .next (ret .nothing (raiseFault .rbNotInitialised s))
  else if isEmpty s then .next (ret .nothing s)
  else
    match s.cell .rba s.rb.rd.toNat with
    | none => .next (ret .nothing (raiseFault .rbUnwrittenRead s))
    | some b => pollByte b s

/-- FR_POLL. -/
def execFrPoll (s : State) : Host.Outcome State Fault Refusal :=
  if s.blk.halted then .fault .halted else poll s

end Sys2Proof.Machine
end

