-- ==== Sys2Proof/Machine/Dispatch.lean ====
section
/-! DEFINITION. Dispatch.lean: one arm per instruction. -/

namespace Sys2Proof.Machine

/-- The meaning of every instruction. -/
def exec (i : Instr) (s : State) : Host.Outcome State Fault Refusal :=
  match i with
  | .rbInit c => Sys2Proof.Machine.execRbInit c s
  | .rbIsEmpty => Sys2Proof.Machine.execRbIsEmpty s
  | .rbDataLen => Sys2Proof.Machine.execRbDataLen s
  | .rbQueueBytes data => Sys2Proof.Machine.execRbQueueBytes data s
  | .rbDequeueByte => Sys2Proof.Machine.execRbDequeueByte s
  | .rbSetWriteIndex v => Sys2Proof.Machine.execRbSetWriteIndex v s
  | .rbIncrementReadIndex n => Sys2Proof.Machine.execRbIncrementReadIndex n s
  | .rbGetMaxContiguousSlice => Sys2Proof.Machine.execRbGetMaxContiguousSlice s
  | .rbArrayWrite a data => Sys2Proof.Machine.execRbArrayWrite a data s
  | .rbArrayRead a => Sys2Proof.Machine.execRbArrayRead a s
  | .frPoll => Sys2Proof.Machine.execFrPoll s
  | .frSend a pl => Sys2Proof.Machine.execFrSend a pl s
  | .dfuStateCheck => Sys2Proof.Machine.execDfuStateCheck s
  | .reservedD => Sys2Proof.Machine.execReservedD s
  | .reservedEF odd => Sys2Proof.Machine.execReservedEF odd s
  | .initReq pl => Sys2Proof.Machine.execInitReq pl s
  | .statusReq pl => Sys2Proof.Machine.execStatusReq pl s
  | .pageCreateReq pl => Sys2Proof.Machine.execPageCreateReq pl s
  | .writeDataEvt pl => Sys2Proof.Machine.execWriteDataEvt pl s
  | .pageStoreReq pl => Sys2Proof.Machine.execPageStoreReq pl s
  | .stateCheckResp pl => Sys2Proof.Machine.execStateCheckResp pl s
  | .cancelResp pl => Sys2Proof.Machine.execCancelResp pl s
  | .fwd cmd pl => Sys2Proof.Machine.execFwd cmd pl s
  | .ignore cmd pl => Sys2Proof.Machine.execIgnore cmd pl s

end Sys2Proof.Machine
end

