-- ==== Sys2Proof/Machine/Fetch.lean ====
section
/-! DEFINITION. Fetch.lean: what the environment's next event makes the block do, the placing of an opcode-table word as
that event, and the pseudo-operations of 30_encoding.md R104. -/

namespace Sys2Proof.Machine

/-- A request taken from the inbox: nothing is enabled while the block is halted (60_exceptions.md R265), the request is
decoded (R100), its agent checked (R269). -/
def fetchRequest (r : Request) (s : State) : Fetched :=
  if s.blk.halted then .stop .halted
  else
    match decodePort r.word r.data with
    | .ok i => if owns r.agent i then .run i s else .stop .notOwner
    | .error _ => .refuse .requestTooLong

/-- The next event of the environment's schedule (00_scope.md R8, 60_exceptions.md R265; log 6). -/
def fetch (s : State) : Fetched :=
  match s.inbox with
  | [] => .idle
  | .reset :: rest => .reset { s with inbox := rest }
  | .request r :: rest => fetchRequest r { s with inbox := rest }

/-- A request put before every other event. -/
def placeRequest (r : Request) (s : State) : State := { s with inbox := .request r :: s.inbox }

/-- The agent that issues an operation where its owner does. -/
def issuer (i : Instr) : Agent := (owner i).getD .host

/-- A request word and no data, issued by the operation's owner. -/
def requestOfWord (w : BitVec 20) : Request := { agent := issuer (selectPort w []), word := w, data := [] }

/-- CONSUMER's FR_POLL request. -/
def pollRequest : Request := { agent := .consumer, word := requestWord 10 0, data := [] }

/-- The receiver before the last byte of a frame of this command and payload (R37, R72). -/
def receiverAtLastByte (p : Params) (cmd : Byte) (payload : Bytes) : Receiver :=
  { pos := BitVec.ofNat 8 (5 + payload.length), len := BitVec.ofNat 8 payload.length, cmd := cmd,
    crcLo := (p.crc16 (crcInput cmd payload)).extractLsb' 0 8, rxp := memWrite .rxp [] 0 payload }

/-- A ring buffer that holds one unread byte. -/
def ringWithByte (b : Byte) : RingBuffer := { init := true, cap := 2, wr := 1, rd := 0, rba := [(0, b)] }

/-- The block with a frame all but received: its last byte waits in the ring buffer and CONSUMER polls (log 18). -/
def placeFrame (cmd : Byte) (payload : Bytes) (s : State) : State :=
  placeRequest pollRequest
    { s with
      rb := ringWithByte ((s.cfg.crc16 (crcInput cmd payload)).extractLsb' 8 8)
      fr := receiverAtLastByte s.cfg cmd payload }

/-- An opcode-table word placed where the next step runs it (log 18). -/
def placeTableWord (s : State) (nbits w : Nat) : State :=
  if 16 < nbits ∧ w < 2 ^ 20 then placeRequest (requestOfWord (BitVec.ofNat 20 w)) s
  else
    placeFrame ((BitVec.ofNat 32 w).extractLsb' 0 8)
      (List.replicate ((BitVec.ofNat 32 w).extractLsb' 8 8).toNat 0#8) s

/-- `FEED [b0..bk−1]` (R104). -/
def feed (bs : Bytes) : List Event :=
  .request { agent := .producer, word := requestWord 3 0, data := bs } :: bs.map (fun _ => .request pollRequest)

/-- The array writes of `DMA_PUSH` from index `w` on, modulo `c` (R104). -/
def arrayWrites (c w : Nat) : Bytes → List Event
  | [] => []
  | b :: bs =>
    .request { agent := .producer, word := requestWord 8 (BitVec.ofNat 16 (w % c)), data := [b] }
      :: arrayWrites c (w + 1) bs

/-- `DMA_PUSH [b0..bk−1]` issued in state `s` (R104). -/
def dmaPush (s : State) (bs : Bytes) : List Event :=
  arrayWrites (s.rb.cap.toNat) s.rb.wr.toNat bs
    ++ [.request { agent := .producer,
                   word := requestWord 5 (BitVec.ofNat 16 ((s.rb.wr.toNat + bs.length) % s.rb.cap.toNat)), data := [] }]

/-- The accesses of `READ_SLICE` after its RB_GET_MAX_CONTIGUOUS_SLICE answered `(i, l)` (R104). -/
def readSlice (i l : BitVec 16) : List Event :=
  (List.range l.toNat).map (fun j =>
      .request { agent := .consumer, word := requestWord 9 (i + BitVec.ofNat 16 j), data := [] })
    ++ [.request { agent := .consumer, word := requestWord 6 l, data := [] }]

end Sys2Proof.Machine
end

