-- ==== Sys2Proof/Machine/Step.lean ====
section
/-! DEFINITION. Step.lean: one step of the block: the next event of the environment's schedule. -/

namespace Sys2Proof.Machine

/-- One atomic step (00_scope.md R7): the environment's next event, or no change where it issues none. -/
def step (s : State) : Host.Outcome State Fault Refusal :=
  match fetch s with
  | .idle => .next s
  | .reset t => .next (externalReset t)
  | .run i t => exec i t
  | .stop r => .fault r
  | .refuse r => .refused r

/-- The state with an opcode-table word placed as what the next step runs (log 18). -/
def State.withFetchWord (s : State) (nbits w : Nat) : State := placeTableWord s nbits w

end Sys2Proof.Machine
end

