-- ==== Sys2Proof/Safety.lean ====
section
/-! DEFINITION. Safety.lean: what counts as a run's end (70_reset_and_hazards.md R285–R289), the invariant of the block's
state, and the terms the statements use: the unread bytes, a receive run, a FIFO run. -/

namespace Sys2Proof.Machine

/-- No agent's operation is disabled (10_state.md R45). -/
abbrev Running (s : State) : Prop := s.blk.halted = false

/-- A running block whose ring buffer is initialised (40_ring_buffer.md R140). -/
abbrev RbReady (s : State) : Prop := Running s ∧ s.rb.init = true

/-- The capacity's range and the cursors held modulo C (10_state.md R32, R33). -/
abbrev CursorsOk (s : State) : Prop :=
  2 ≤ capacity s ∧ s.rb.wr.toNat < capacity s ∧ s.rb.rd.toNat < capacity s

/-- FR_POLL has the byte `b` to consume (41_frame_codec.md R170). -/
abbrev PollReads (s : State) (b : Byte) : Prop :=
  RbReady s ∧ s.rb.wr ≠ s.rb.rd ∧ s.cell .rba s.rb.rd.toNat = some b

/-- A space holds these bytes from index `a` on. -/
abbrev Holds (s : State) (sp : Space) (a : Nat) (bs : Bytes) : Prop :=
  ∀ (k : Nat) (h : k < bs.length), s.cell sp (a + k) = some bs[k]

/-- The state with one more fault bit and otherwise unchanged but for the value returned (60_exceptions.md R260, R261). -/
abbrev OnlyFault (c : FaultCode) (s t : State) : Prop :=
  t = { s with blk := { s.blk with faults := addFault c s.blk.faults }, result := t.result }

/-- The state after an FR_POLL that consumed one byte and left the receiver like this (41_frame_codec.md R170). -/
abbrev polled (s : State) (f : Receiver) : State :=
  { s with
    rb := { s.rb with rd := BitVec.ofNat 16 ((s.rb.rd.toNat + 1) % capacity s) }
    fr := f
    result := .nothing }

/-! ### End of a run -/

/-- The quiescent state (R287): no unread byte, and the environment issues nothing further. -/
abbrev Quiescent (s : State) : Prop := s.rb.init = true ∧ s.rb.wr = s.rb.rd ∧ s.inbox = []

/-- A run ends successfully here (R288, R289). -/
abbrev EndsSuccessfully (s : State) : Prop :=
  (Quiescent s ∨ s.blk.halted = true) ∧ s.blk.faults = FaultBits.none

/-- What a finished run shows (R289). -/
structure Observation where
  tx : List Bytes
  fwd : List (Byte × Bytes)
  commit : List Nat
  flash : Memory
  dfu : Session
  rb : RingBuffer
  fr : Receiver
  deriving DecidableEq, Repr

/-- The observation of a state (R289). -/
def observe (s : State) : Observation :=
  { tx := s.logs.tx, fwd := s.logs.fwd, commit := s.logs.commit, flash := s.flash, dfu := s.dfu, rb := s.rb, fr := s.fr }

/-- Boot code's request: RB_INIT with the configured capacity (R284). -/
def bootRequest (p : Params) : Event :=
  .request { agent := .host, word := requestWord 0 (BitVec.ofNat 16 p.rbCapacity), data := [] }

/-- The launch state `Boot(c)` (R285) under a configuration, a flash contents, the oracles' answers and the environment's
further requests. -/
def boot (c : BitVec 16) (p : Params) (flash : Memory) (d : Draws) (inbox : List Event) : State :=
  { State.reset with
    cfg := p, flash := flash, draws := d, inbox := inbox
    rb := { init := true, cap := c, wr := 0, rd := 0, rba := [] } }

/-! ### The invariant -/

/-- The ring buffer: its cursors, its cells inside the array and in canonical form (R32, R33, R71). -/
abbrev RingOk (s : State) : Prop :=
  (s.rb.init = true → CursorsOk s) ∧ Memory.wf .rba s.rb.rba ∧ ∀ c ∈ s.rb.rba, c.1 < capacity s

/-- The receiver: its length and position (R37, R38), its cells (R70), and that the payload bytes before the position are
written (R72). -/
abbrev ReceiverOk (s : State) : Prop :=
  s.fr.len.toNat ≤ Config.maxPayload ∧ s.fr.pos.toNat ≤ 5 + s.fr.len.toNat ∧ Memory.wf .rxp s.fr.rxp ∧
  (∀ c ∈ s.fr.rxp, c.1 < Config.rxpSize) ∧
  ∀ j < s.fr.len.toNat, j + 4 < s.fr.pos.toNat → s.cell .rxp j ≠ none

/-- The session: R43's two invariants, the digest's length (R41), the page buffer (R70), and the image inside the flash
region. -/
abbrev SessionOk (s : State) : Prop :=
  (s.dfu.pageOffset.toNat ≤ s.dfu.pageSize.toNat ∧ s.dfu.pageSize.toNat ≤ Config.maxPage) ∧
  (s.dfu.inProgress = false → s.dfu = Session.initial) ∧
  s.dfu.expectedSha256.length = 32 ∧
  (Memory.wf .pbuf s.dfu.pbuf ∧ ∀ c ∈ s.dfu.pbuf, c.1 < Config.maxPage) ∧
  s.dfu.firmwareSize.toNat ≤ s.cfg.flashRegionSize ∧ s.dfu.firmwareOffset.toNat ≤ s.cfg.flashRegionSize

/-- The flash contents: canonical, inside the region (R70, R74). -/
abbrev FlashOk (s : State) : Prop :=
  Memory.wf .flash s.flash ∧ ∀ c ∈ s.flash, c.1 < s.cfg.flashRegionSize

/-- A commit is recorded exactly where the block is halted (R49, R288). -/
abbrev CommitOk (s : State) : Prop := s.logs.commit.length = if s.blk.halted then 1 else 0

/-- The invariant of the block's state. -/
abbrev Inv (s : State) : Prop :=
  s.cfg.Valid ∧ RingOk s ∧ ReceiverOk s ∧ SessionOk s ∧ FlashOk s ∧ CommitOk s

/-! ### Terms of the statements -/

/-- The unread bytes' cells in FIFO order (R36). -/
def unread (s : State) : List (Option Byte) :=
  (List.range (occ s)).map (fun k => s.cell .rba ((s.rb.rd.toNat + k) % capacity s))

/-- The neutral result of a ring-buffer operation other than RB_INIT (R140); none for every other instruction. -/
def neutralResult : Instr → Option Result
  | .rbInit _ => none
  | .rbIsEmpty => some (.bool false)
  | .rbDataLen => some (.half 0)
  | .rbQueueBytes _ => some (.bool false)
  | .rbDequeueByte => some (.optByte none)
  | .rbSetWriteIndex _ => some .nothing
  | .rbIncrementReadIndex _ => some .nothing
  | .rbGetMaxContiguousSlice => some (.slice 0 0)
  | .rbArrayWrite _ _ => some .nothing
  | .rbArrayRead _ => some (.byte 0)
  | .frPoll => none
  | .frSend _ _ => none
  | .dfuStateCheck => none
  | .reservedD => none
  | .reservedEF _ => none
  | .initReq _ => none
  | .statusReq _ => none
  | .pageCreateReq _ => none
  | .writeDataEvt _ => none
  | .pageStoreReq _ => none
  | .stateCheckResp _ => none
  | .cancelResp _ => none
  | .fwd _ _ => none
  | .ignore _ _ => none

/-- Is the instruction a frame the receiver dispatches (R115, R180)? -/
def isFrame : Instr → Bool
  | .rbInit _ => false
  | .rbIsEmpty => false
  | .rbDataLen => false
  | .rbQueueBytes _ => false
  | .rbDequeueByte => false
  | .rbSetWriteIndex _ => false
  | .rbIncrementReadIndex _ => false
  | .rbGetMaxContiguousSlice => false
  | .rbArrayWrite _ _ => false
  | .rbArrayRead _ => false
  | .frPoll => false
  | .frSend _ _ => false
  | .dfuStateCheck => false
  | .reservedD => false
  | .reservedEF _ => false
  | .initReq _ => true
  | .statusReq _ => true
  | .pageCreateReq _ => true
  | .writeDataEvt _ => true
  | .pageStoreReq _ => true
  | .stateCheckResp _ => true
  | .cancelResp _ => true
  | .fwd _ _ => true
  | .ignore _ _ => true

/-- The frame R110 gives a command and a payload, byte by byte. -/
def wireFrame (p : Params) (cmd : Byte) (payload : Bytes) : Bytes :=
  let crc := p.crc16 ([BitVec.ofNat 8 payload.length, cmd] ++ payload)
  [0xAA#8, 0x55#8, BitVec.ofNat 8 payload.length, cmd] ++ payload ++ [crc.extractLsb' 0 8, crc.extractLsb' 8 8]

/-- What a list of frames handed to the transmit facility one after another adds to `tx_log`, and the draws after it
(R181): a frame whose draw is `ok` is appended, another is lost. -/
def transmitted : List Bytes → Draws → List Bytes × Draws
  | [], d => ([], d)
  | f :: fs, d =>
    let r := transmitted fs (drawTx d).2
    ((if (drawTx d).1 = .ok then f :: r.1 else r.1), r.2)

/-- The state with those frames handed to the transmit facility. -/
def transmit (frames : List Bytes) (s : State) : State :=
  { s with
    logs := { s.logs with tx := s.logs.tx ++ (transmitted frames s.draws).1 }
    draws := (transmitted frames s.draws).2 }

/-- The one-byte response frame of a command and a status (R122). -/
def responseFrame (p : Params) (kind : DfuCmd) (st : Status) : Bytes :=
  wireFrame p (p.cmd.code kind) [p.status.code st]

/-- The Cancel request frame (R129, R215). -/
def cancelFrame (p : Params) : Bytes := wireFrame p (p.cmd.code .cancelReq) []

/-- `RxStep` applied to bytes in order: each byte's answer, and the state after the last (R186). -/
def receiveAll : Bytes → State → Option (List (Option (Byte × Bytes)) × State)
  | [], s => some ([], s)
  | b :: bs, s =>
    match rxStep b s with
    | none => none
    | some r =>
      match receiveAll bs r.1 with
      | none => none
      | some q => some (r.2 :: q.1, q.2)

/-- A byte string with bit `k` flipped, bit `k % 8` of byte `k / 8` (R187). -/
def flipBit (k : Nat) (bs : Bytes) : Bytes :=
  bs.set (k / 8) (byteAt bs (k / 8) ^^^ BitVec.ofNat 8 (2 ^ (k % 8)))

/-- The two operations of the FIFO law (R151). -/
inductive FifoOp where
  | queue (data : Bytes)
  | dequeue
  deriving DecidableEq, Repr

/-- The instruction of a FIFO operation. -/
def fifoInstr : FifoOp → Instr
  | .queue data => .rbQueueBytes data
  | .dequeue => .rbDequeueByte

/-- The bytes a FIFO operation put in, by its result. -/
def fifoIn (op : FifoOp) (r : Result) : Bytes :=
  match op, r with
  | .queue data, .bool true => data
  | _, _ => []

/-- The byte a FIFO operation took out, by its result. -/
def fifoOut (op : FifoOp) (r : Result) : Bytes :=
  match op, r with
  | .dequeue, .optByte (some b) => [b]
  | _, _ => []

/-- A run of FIFO operations: the accepted bytes, the returned bytes, and the state after (R151). -/
def fifoRun : List FifoOp → State → Option (Bytes × Bytes × State)
  | [], s => some ([], [], s)
  | op :: ops, s =>
    match exec (fifoInstr op) s with
    | .next t =>
      match fifoRun ops t with
      | some (i, o, u) => some (fifoIn op t.result ++ i, fifoOut op t.result ++ o, u)
      | none => none
    | .fault _ => none
    | .refused _ => none

end Sys2Proof.Machine
end

