-- ==== Sys2Proof/Certificates/Slice0/Obligations.lean ====
section
/-! DEFINITION. Obligations.lean: the statements for the provers, from the numbered rules of the spec. -/

open Sys2Proof Sys2Proof.Machine

/-! ### Ring buffer (40_ring_buffer.md) -/

/-- R141: RB_INIT assigns the capacity, zeroes both cursors and leaves every cell unwritten, touching nothing else; a
capacity below 2 is refused. -/
def Obligations.RbInitAssignsCapacityAndZeroesCursors : Prop :=
  ∀ (c : BitVec 16) (s : State), Running s →
    (2 ≤ c.toNat →
      ∃ t, exec (.rbInit c) s = .next t ∧ t = { s with rb := t.rb, result := .nothing } ∧
        t.rb.init = true ∧ t.rb.cap = c ∧ t.rb.wr = 0 ∧ t.rb.rd = 0 ∧ isEmpty t = true ∧
        ∀ i, t.cell .rba i = none) ∧
    (c.toNat < 2 → ∃ t, exec (.rbInit c) s = .next t ∧ OnlyFault .refusedOperand s t)

/-- R103 (with R261): a reserved selector and an operand out of its operation's range are refused: the fault bit is set
and no other state changes. RB_ARRAY_WRITE's operand is checked in an initialised buffer (R265). -/
def Obligations.RefusedRequestsOnlySetTheirFaultBit : Prop :=
  ∀ s : State, Running s →
    (∀ (w : BitVec 20) (data : Bytes), data.length ≤ 65535 → 0xD ≤ requestOp w →
      ∃ i t, decodePort w data = .ok i ∧ exec i s = .next t ∧ OnlyFault .refusedOpcode s t) ∧
    (∀ c : BitVec 16, c.toNat < 2 → ∃ t, exec (.rbInit c) s = .next t ∧ OnlyFault .refusedOperand s t) ∧
    (∀ (a : BitVec 16) (data : Bytes), s.rb.init = true → data.length ≠ 1 →
      ∃ t, exec (.rbArrayWrite a data) s = .next t ∧ OnlyFault .refusedOperand s t) ∧
    (∀ (a : BitVec 16) (payload : Bytes), a.extractLsb' 8 8 ≠ 0#8 →
      ∃ t, exec (.frSend a payload) s = .next t ∧ OnlyFault .refusedOperand s t)

/-- R103: RESERVED_D and RESERVED_EF, whichever selector, complete by setting REFUSED_OPCODE and nothing else, before
RB_INIT too (R265). -/
def Obligations.ReservedSelectorsCompleteAsRefused : Prop :=
  ∀ (odd : Bool) (s : State), Running s →
    (∃ t, exec .reservedD s = .next t ∧ OnlyFault .refusedOpcode s t) ∧
    ∃ t, exec (.reservedEF odd) s = .next t ∧ OnlyFault .refusedOpcode s t

/-- R140: no ring-buffer operation, RB_INIT among them, has a next state while the block is halted; before RB_INIT each but
RB_INIT only raises RB_NOT_INITIALISED and returns its neutral value. -/
def Obligations.UninitialisedRingBufferOnlyFaults : Prop :=
  (∀ (i : Instr) (r : Result) (s : State), neutralResult i = some r →
    (s.blk.halted = true → ∀ t, exec i s ≠ .next t) ∧
    (Running s → s.rb.init = false →
      exec i s = .next { s with
        blk := { s.blk with faults := addFault .rbNotInitialised s.blk.faults }, result := r })) ∧
  ∀ (c : BitVec 16) (s t : State), s.blk.halted = true → exec (.rbInit c) s ≠ .next t

/-- R142: RB_IS_EMPTY returns whether the cursors are equal and changes nothing. -/
def Obligations.RbIsEmptyReturnsCursorEquality : Prop :=
  ∀ s : State, Running s →
    (s.rb.init = true → exec .rbIsEmpty s = .next { s with result := .bool (decide (s.rb.wr = s.rb.rd)) }) ∧
    (s.rb.init = false →
      ∃ t, exec .rbIsEmpty s = .next t ∧ OnlyFault .rbNotInitialised s t ∧ t.result = .bool false)

/-- R143: RB_DATA_LEN returns `(wr − rd) mod C`, never C, zero exactly when the buffer is empty, and changes nothing. -/
def Obligations.RbDataLenReturnsOccupancy : Prop :=
  ∀ s : State, Running s →
    (s.rb.init = true → CursorsOk s →
      ∃ v : BitVec 16, exec .rbDataLen s = .next { s with result := .half v } ∧
        (v.toNat : Int) = ((s.rb.wr.toNat : Int) - s.rb.rd.toNat) % (s.rb.cap.toNat : Int) ∧
        v.toNat < s.rb.cap.toNat ∧ (v = 0 ↔ s.rb.wr = s.rb.rd)) ∧
    (s.rb.init = false →
      ∃ t, exec .rbDataLen s = .next t ∧ OnlyFault .rbNotInitialised s t ∧ t.result = .half 0)

/-- R144: a call past the limit is rejected and changes nothing; an accepted one lays its bytes from `wr` on modulo C,
moves `wr`, leaves every other cell alone, and raises RB_FULL_AMBIGUOUS exactly where Verbatim mode is filled to C. -/
def Obligations.RbQueueBytesAppendsOrRejects : Prop :=
  ∀ (data : Bytes) (s : State), Running s →
    (s.rb.init = true → CursorsOk s → limit s < data.length + occ s →
      exec (.rbQueueBytes data) s = .next { s with result := .bool false }) ∧
    (s.rb.init = true → CursorsOk s → data.length + occ s ≤ limit s →
      ∃ t, exec (.rbQueueBytes data) s = .next t ∧
        t = { s with
          rb := { s.rb with wr := t.rb.wr, rba := t.rb.rba }
          blk := { s.blk with faults := t.blk.faults }
          result := .bool true } ∧
        t.rb.wr.toNat = (s.rb.wr.toNat + data.length % s.rb.cap.toNat) % s.rb.cap.toNat ∧
        (∀ (k : Nat) (h : k < data.length),
          t.cell .rba ((s.rb.wr.toNat + k) % s.rb.cap.toNat) = some data[k]) ∧
        (∀ a, (∀ k < data.length, a ≠ (s.rb.wr.toNat + k) % s.rb.cap.toNat) → t.cell .rba a = s.cell .rba a) ∧
        t.blk.faults =
          if s.cfg.fullMode = .verbatim ∧ data.length + occ s = s.rb.cap.toNat then
            addFault .rbFullAmbiguous s.blk.faults
          else s.blk.faults) ∧
    (s.rb.init = false →
      ∃ t, exec (.rbQueueBytes data) s = .next t ∧ OnlyFault .rbNotInitialised s t ∧ t.result = .bool false)

/-- R152: a rejected RB_QUEUE_BYTES leaves both cursors, every cell and the fault set unchanged, whatever the state. -/
def Obligations.RejectedQueueChangesNothing : Prop :=
  ∀ (data : Bytes) (s t : State), s.rb.init = true → exec (.rbQueueBytes data) s = .next t → t.result = .bool false →
    t.rb.wr = s.rb.wr ∧ t.rb.rd = s.rb.rd ∧ (∀ a, t.cell .rba a = s.cell .rba a) ∧
      t.blk.faults = s.blk.faults ∧ t = { s with result := .bool false }

/-- R145: RB_DEQUEUE_BYTE returns none on an empty buffer, the byte at `rd` with `rd` moved by one modulo C otherwise, and
faults without moving `rd` where that cell was never written. -/
def Obligations.RbDequeueByteTakesOneByte : Prop :=
  ∀ s : State, Running s →
    (s.rb.init = true → s.rb.wr = s.rb.rd → exec .rbDequeueByte s = .next { s with result := .optByte none }) ∧
    (s.rb.init = true → s.rb.wr ≠ s.rb.rd → s.cell .rba s.rb.rd.toNat = none →
      ∃ t, exec .rbDequeueByte s = .next t ∧ OnlyFault .rbUnwrittenRead s t ∧ t.result = .optByte none) ∧
    (∀ b, s.rb.init = true → CursorsOk s → s.rb.wr ≠ s.rb.rd → s.cell .rba s.rb.rd.toNat = some b →
      ∃ t, exec .rbDequeueByte s = .next t ∧
        t = { s with rb := { s.rb with rd := t.rb.rd }, result := .optByte (some b) } ∧
        t.rb.rd.toNat = (s.rb.rd.toNat + 1) % s.rb.cap.toNat) ∧
    (s.rb.init = false →
      ∃ t, exec .rbDequeueByte s = .next t ∧ OnlyFault .rbNotInitialised s t ∧ t.result = .optByte none)

/-- R146: RB_SET_WRITE_INDEX writes `value mod C` with or without a fault; it faults RB_PRODUCER_OVERRUN where the
publication passes the limit and RB_FULL_AMBIGUOUS where it reaches C in Verbatim mode. -/
def Obligations.RbSetWriteIndexPublishes : Prop :=
  ∀ (v : BitVec 16) (s : State), Running s →
    (s.rb.init = true → CursorsOk s →
      ∃ t, exec (.rbSetWriteIndex v) s = .next t ∧
        t = { s with
          rb := { s.rb with wr := t.rb.wr }
          blk := { s.blk with faults := t.blk.faults }
          result := .nothing } ∧
        t.rb.wr.toNat = v.toNat % s.rb.cap.toNat ∧
        ∃ k : Nat,
          (k : Int) = (((v.toNat % s.rb.cap.toNat : Nat) : Int) - s.rb.wr.toNat) % (s.rb.cap.toNat : Int) ∧
          t.blk.faults =
            if limit s < occ s + k then addFault .rbProducerOverrun s.blk.faults
            else if s.cfg.fullMode = .verbatim ∧ occ s + k = s.rb.cap.toNat then
              addFault .rbFullAmbiguous s.blk.faults
            else s.blk.faults) ∧
    (s.rb.init = false → ∃ t, exec (.rbSetWriteIndex v) s = .next t ∧ OnlyFault .rbNotInitialised s t)

/-- R147: RB_INCREMENT_READ_INDEX moves `rd` by `n mod C` with or without a fault; it faults RB_CONSUMER_OVERADVANCE where
`n` exceeds the unread bytes. -/
def Obligations.RbIncrementReadIndexAdvances : Prop :=
  ∀ (n : BitVec 16) (s : State), Running s →
    (s.rb.init = true → CursorsOk s →
      ∃ t, exec (.rbIncrementReadIndex n) s = .next t ∧
        t = { s with
          rb := { s.rb with rd := t.rb.rd }
          blk := { s.blk with faults := t.blk.faults }
          result := .nothing } ∧
        t.rb.rd.toNat = (s.rb.rd.toNat + n.toNat % s.rb.cap.toNat) % s.rb.cap.toNat ∧
        t.blk.faults = if occ s < n.toNat then addFault .rbConsumerOveradvance s.blk.faults else s.blk.faults) ∧
    (s.rb.init = false → ∃ t, exec (.rbIncrementReadIndex n) s = .next t ∧ OnlyFault .rbNotInitialised s t)

/-- R148: RB_GET_MAX_CONTIGUOUS_SLICE returns `rd` and the longest unread run that does not wrap: it ends at `wr` or at
the array's end, and is never longer than the unread bytes. -/
def Obligations.RbSliceIsLongestUnwrappedRun : Prop :=
  ∀ s : State, Running s →
    (s.rb.init = true → CursorsOk s →
      ∃ l : BitVec 16, exec .rbGetMaxContiguousSlice s = .next { s with result := .slice s.rb.rd l } ∧
        (s.rb.rd.toNat ≤ s.rb.wr.toNat → s.rb.rd.toNat + l.toNat = s.rb.wr.toNat) ∧
        (s.rb.wr.toNat < s.rb.rd.toNat → s.rb.rd.toNat + l.toNat = s.rb.cap.toNat) ∧
        l.toNat ≤ occ s) ∧
    (s.rb.init = false →
      ∃ t, exec .rbGetMaxContiguousSlice s = .next t ∧ OnlyFault .rbNotInitialised s t ∧ t.result = .slice 0 0)

/-- R149: RB_ARRAY_WRITE places its byte at an index below C, faulting RB_PRODUCER_OVERRUN where that slot is unread, and
touches no other cell and no cursor; an index from C on only faults RB_BAD_INDEX; data of another length is refused. -/
def Obligations.RbArrayWritePlacesByte : Prop :=
  ∀ (i : BitVec 16) (s : State), Running s →
    (∀ b, s.rb.init = true → i.toNat < s.rb.cap.toNat →
      ∃ t, exec (.rbArrayWrite i [b]) s = .next t ∧
        t = { s with
          rb := { s.rb with rba := t.rb.rba }
          blk := { s.blk with faults := t.blk.faults }
          result := .nothing } ∧
        t.cell .rba i.toNat = some b ∧ (∀ a, a ≠ i.toNat → t.cell .rba a = s.cell .rba a) ∧
        t.blk.faults =
          if ((i.toNat : Int) - s.rb.rd.toNat) % (s.rb.cap.toNat : Int) < (occ s : Int) then
            addFault .rbProducerOverrun s.blk.faults
          else s.blk.faults) ∧
    (∀ b, s.rb.init = true → s.rb.cap.toNat ≤ i.toNat →
      ∃ t, exec (.rbArrayWrite i [b]) s = .next t ∧ OnlyFault .rbBadIndex s t) ∧
    (∀ data, s.rb.init = true → data.length ≠ 1 →
      ∃ t, exec (.rbArrayWrite i data) s = .next t ∧ OnlyFault .refusedOperand s t) ∧
    (∀ data, s.rb.init = false →
      ∃ t, exec (.rbArrayWrite i data) s = .next t ∧ OnlyFault .rbNotInitialised s t)

/-- R150: RB_ARRAY_READ returns a written cell below C and changes nothing; an unwritten cell and an index from C on fault
and return 0x00. -/
def Obligations.RbArrayReadReturnsCell : Prop :=
  ∀ (i : BitVec 16) (s : State), Running s →
    (∀ b, s.rb.init = true → i.toNat < s.rb.cap.toNat → s.cell .rba i.toNat = some b →
      exec (.rbArrayRead i) s = .next { s with result := .byte b }) ∧
    (s.rb.init = true → i.toNat < s.rb.cap.toNat → s.cell .rba i.toNat = none →
      ∃ t, exec (.rbArrayRead i) s = .next t ∧ OnlyFault .rbUnwrittenRead s t ∧ t.result = .byte 0) ∧
    (s.rb.init = true → s.rb.cap.toNat ≤ i.toNat →
      ∃ t, exec (.rbArrayRead i) s = .next t ∧ OnlyFault .rbBadIndex s t ∧ t.result = .byte 0) ∧
    (s.rb.init = false →
      ∃ t, exec (.rbArrayRead i) s = .next t ∧ OnlyFault .rbNotInitialised s t ∧ t.result = .byte 0)

/-- R151, the FIFO law: from RB_INIT, any sequence of RB_QUEUE_BYTES and RB_DEQUEUE_BYTE runs to its end, and where it
raised no fault the bytes returned are a prefix of the bytes accepted, and all of them where the run ends empty. -/
def Obligations.FifoLaw : Prop :=
  ∀ (c : BitVec 16) (ops : List FifoOp) (s t : State), Running s → 2 ≤ c.toNat →
    s.blk.faults = FaultBits.none → exec (.rbInit c) s = .next t →
    ∃ accepted returned u, fifoRun ops t = some (accepted, returned, u) ∧
      (u.blk.faults = FaultBits.none →
        returned <+: accepted ∧ (isEmpty u = true → returned = accepted))

/-- R153: no PRODUCER operation writes `rb.rd`; no CONSUMER operation, a dispatched frame among them, writes `rb.wr` or any
cell of RBA. -/
def Obligations.EachCursorHasOneWriter : Prop :=
  ∀ (i : Instr) (s t : State), exec i s = .next t →
    (owner i = some .producer → t.rb.rd = s.rb.rd) ∧
    (owner i = some .consumer → t.rb.wr = s.rb.wr ∧ ∀ a, t.cell .rba a = s.cell .rba a)

/-! ### Frame codec (41_frame_codec.md) -/

/-- R170: FR_POLL faults before RB_INIT and on an unwritten cell, does nothing on an empty buffer, and otherwise consumes
exactly one byte, gives it to the receive step, and runs the instruction of the frame that step completes, if any, to its
end in the same step. It is disabled while the block is halted. -/
def Obligations.FrPollConsumesOneByte : Prop :=
  (∀ s t : State, s.blk.halted = true → exec .frPoll s ≠ .next t) ∧
  ∀ s : State, Running s →
    (s.rb.init = false → ∃ t, exec .frPoll s = .next t ∧ OnlyFault .rbNotInitialised s t) ∧
    (s.rb.init = true → s.rb.wr = s.rb.rd → exec .frPoll s = .next { s with result := .nothing }) ∧
    (s.rb.init = true → s.rb.wr ≠ s.rb.rd → s.cell .rba s.rb.rd.toNat = none →
      ∃ t, exec .frPoll s = .next t ∧ OnlyFault .rbUnwrittenRead s t) ∧
    (∀ b, PollReads s b → CursorsOk s → s.fr.pos.toNat ≤ 5 + s.fr.len.toNat →
      ∃ u r t, u = { s with rb := { s.rb with rd := u.rb.rd }, result := .nothing } ∧
        u.rb.rd.toNat = (s.rb.rd.toNat + 1) % s.rb.cap.toNat ∧ rxStep b u = some r ∧ exec .frPoll s = .next t ∧
        (r.2 = none → t = r.1) ∧
        (∀ cmd payload, r.2 = some (cmd, payload) → exec (selectFrame s.cfg cmd payload) r.1 = .next t))

/-- R171, R172, R173 with R178: in the three scanning states FR_POLL moves the receiver as the byte says and changes nothing
else but the read cursor. -/
def Obligations.FrPollScansPreambleAndLength : Prop :=
  ∀ (b : Byte) (s : State), PollReads s b →
    (s.fr.pos = 0 →
      exec .frPoll s = .next (polled s { s.fr with pos := if b = 0xAA#8 then 1 else 0 })) ∧
    (s.fr.pos = 1 →
      exec .frPoll s = .next (polled s { s.fr with
        pos := if b = 0x55#8 then 2 else if s.cfg.resyncReexamine = true ∧ b = 0xAA#8 then 1 else 0 })) ∧
    (s.fr.pos = 2 → b.toNat ≤ 127 → exec .frPoll s = .next (polled s { s.fr with len := b, pos := 3 })) ∧
    (s.fr.pos = 2 → 127 < b.toNat →
      exec .frPoll s = .next (polled s { s.fr with
        pos := if s.cfg.resyncReexamine = true ∧ b = 0xAA#8 then 1 else 0 }))

/-- R174, R175, R176: FR_POLL stores the command, a payload byte at its index of RXP and no other, and the CRC's low byte,
each time moving the position by one. -/
def Obligations.FrPollCollectsFrameBody : Prop :=
  ∀ (b : Byte) (s : State), PollReads s b → s.fr.len.toNat ≤ 127 →
    (s.fr.pos = 3 → exec .frPoll s = .next (polled s { s.fr with cmd := b, pos := 4 })) ∧
    (4 ≤ s.fr.pos.toNat → s.fr.pos.toNat < 4 + s.fr.len.toNat →
      ∃ t, exec .frPoll s = .next t ∧
        t = polled s { s.fr with pos := t.fr.pos, rxp := t.fr.rxp } ∧
        t.fr.pos.toNat = s.fr.pos.toNat + 1 ∧ t.cell .rxp (s.fr.pos.toNat - 4) = some b ∧
        ∀ j, j ≠ s.fr.pos.toNat - 4 → t.cell .rxp j = s.cell .rxp j) ∧
    (s.fr.pos.toNat = 4 + s.fr.len.toNat →
      ∃ t, exec .frPoll s = .next t ∧ t = polled s { s.fr with crcLo := b, pos := t.fr.pos } ∧
        t.fr.pos.toNat = s.fr.pos.toNat + 1)

/-- R177 with R179: at the CRC's high byte the counter returns to 0; a frame whose received CRC differs from
`CRC16_FN([len, cmd] ++ payload)` is dropped with no other effect, and one whose CRC is equal goes to the dispatcher. -/
def Obligations.FrPollChecksCrc : Prop :=
  ∀ (b : Byte) (payload : Bytes) (s : State), PollReads s b → s.fr.len.toNat ≤ 127 →
    s.fr.pos.toNat = 5 + s.fr.len.toNat → payload.length = s.fr.len.toNat → Holds s .rxp 0 payload →
    (s.fr.crcLo.toNat + 256 * b.toNat ≠ (s.cfg.crc16 ([s.fr.len, s.fr.cmd] ++ payload)).toNat →
      exec .frPoll s = .next (polled s { s.fr with pos := 0 })) ∧
    (s.fr.crcLo.toNat + 256 * b.toNat = (s.cfg.crc16 ([s.fr.len, s.fr.cmd] ++ payload)).toNat →
      exec .frPoll s = exec (selectFrame s.cfg s.fr.cmd payload) (polled s { s.fr with pos := 0 }))

/-- R180: under a valid configuration each command byte selects exactly its row: the seven receive codes their handlers,
the codes of `FORWARD_SET` Forward, every other byte Ignore, the six block-to-peer codes among them. -/
def Obligations.DispatchSelectsExactlyOneRow : Prop :=
  ∀ (p : Params) (payload : Bytes), p.Valid →
    (selectFrame p p.cmd.initReq payload = .initReq payload ∧
      selectFrame p p.cmd.statusReq payload = .statusReq payload ∧
      selectFrame p p.cmd.pageCreateReq payload = .pageCreateReq payload ∧
      selectFrame p p.cmd.writeDataEvt payload = .writeDataEvt payload ∧
      selectFrame p p.cmd.pageStoreReq payload = .pageStoreReq payload ∧
      selectFrame p p.cmd.stateCheckResp payload = .stateCheckResp payload ∧
      selectFrame p p.cmd.cancelResp payload = .cancelResp payload) ∧
    (∀ cmd ∈ p.forwardSet, selectFrame p cmd payload = .fwd cmd payload) ∧
    (∀ cmd, cmd ∉ receiveCodes p → cmd ∉ p.forwardSet → selectFrame p cmd payload = .ignore cmd payload) ∧
    ∀ cmd ∈ [p.cmd.initResp, p.cmd.statusResp, p.cmd.pageCreateResp, p.cmd.pageStoreResp, p.cmd.stateCheckReq,
        p.cmd.cancelReq],
      selectFrame p cmd payload = .ignore cmd payload

/-- R186, the round-trip law: from `fr.pos = 0` the receive step gives nothing for every byte of an encoded frame but the
last, and for the last the command and the payload that were encoded. -/
def Obligations.ReceiverRoundTrip : Prop :=
  ∀ (cmd : Byte) (payload : Bytes) (s : State), payload.length ≤ 127 → s.fr.pos = 0 →
    ∃ t, receiveAll (wireFrame s.cfg cmd payload) s =
        some (List.replicate (payload.length + 5) none ++ [some (cmd, payload)], t) ∧
      t.fr.pos = 0 ∧ t = { s with fr := t.fr }

/-- R187, its clause for byte 3 or later: a valid frame with one bit flipped there is dropped exactly where `CRC16_FN` of the
flipped message differs from the flipped CRC. -/
def Obligations.BitFlipAfterLengthDroppedIffCrcDiffers : Prop :=
  ∀ (cmd : Byte) (payload : Bytes) (k : Nat) (s : State), payload.length ≤ 127 → s.fr.pos = 0 → 24 ≤ k →
    k < 8 * (payload.length + 6) →
    ∃ r t, receiveAll (flipBit k (wireFrame s.cfg cmd payload)) s =
        some (List.replicate (payload.length + 5) none ++ [r], t) ∧
      t.fr.pos = 0 ∧
      (r = none ↔
        (s.cfg.crc16 (slice (flipBit k (wireFrame s.cfg cmd payload)) 2 (4 + payload.length))).toNat ≠
          (byteAt (flipBit k (wireFrame s.cfg cmd payload)) (4 + payload.length)).toNat +
            256 * (byteAt (flipBit k (wireFrame s.cfg cmd payload)) (5 + payload.length)).toNat)

/-- R182 with R181: FR_SEND appends R110's frame to `tx_log` whole where the transmit draw is `ok`, nothing where it is
`fail`; an oversized payload returns false with no draw; a command operand above 255 is refused; `rb.init` plays no part.
It is disabled while the block is halted. -/
def Obligations.FrSendTransmitsWholeFrameOrNothing : Prop :=
  (∀ (a : BitVec 16) (payload : Bytes) (s t : State), s.blk.halted = true → exec (.frSend a payload) s ≠ .next t) ∧
  ∀ (a : BitVec 16) (payload : Bytes) (s : State), Running s →
    (a.extractLsb' 8 8 = 0#8 → payload.length ≤ 127 →
      exec (.frSend a payload) s = .next { s with
        logs := { s.logs with
          tx := s.logs.tx ++
            if (drawTx s.draws).1 = .ok then [wireFrame s.cfg (a.extractLsb' 0 8) payload] else [] }
        draws := (drawTx s.draws).2
        result := .bool (decide ((drawTx s.draws).1 = .ok)) }) ∧
    (a.extractLsb' 8 8 = 0#8 → 127 < payload.length →
      exec (.frSend a payload) s = .next { s with result := .bool false }) ∧
    (a.extractLsb' 8 8 ≠ 0#8 → ∃ t, exec (.frSend a payload) s = .next t ∧ OnlyFault .refusedOperand s t)

/-- R214: DFU_STATE_CHECK emits an empty StateCheck request and returns whether it was taken; it is disabled while the block
is halted. -/
def Obligations.DfuStateCheckEmitsRequest : Prop :=
  (∀ s t : State, s.blk.halted = true → exec .dfuStateCheck s ≠ .next t) ∧
  ∀ s : State, Running s →
    exec .dfuStateCheck s = .next { s with
      logs := { s.logs with
        tx := s.logs.tx ++ if (drawTx s.draws).1 = .ok then [wireFrame s.cfg s.cfg.cmd.stateCheckReq []] else [] }
      draws := (drawTx s.draws).2
      result := .bool (decide ((drawTx s.draws).1 = .ok)) }

/-- R184 and R185: Forward appends the command and payload to `fwd_log` and does nothing else; Ignore does nothing. -/
def Obligations.ForwardAppendsAndIgnoreDoesNothing : Prop :=
  ∀ (cmd : Byte) (payload : Bytes) (s : State), Running s →
    exec (.fwd cmd payload) s =
      .next { s with logs := { s.logs with fwd := s.logs.fwd ++ [(cmd, payload)] } } ∧
    exec (.ignore cmd payload) s = .next s

/-! ### DFU engine (42_dfu_engine.md) -/

/-- R201: the bypass token always validates; other application data splits at its first slash into a product tag and a
build, compared byte for byte. -/
def Obligations.ValidateAppSplitsAtFirstSlash : Prop :=
  ∀ p : Params,
    validateApp p p.bypassToken = .valid ∧
    (∀ app, app ≠ p.bypassToken → 0x2F#8 ∉ app → validateApp p app = .invalid) ∧
    ∀ tag build, 0x2F#8 ∉ tag → tag ++ 0x2F#8 :: build ≠ p.bypassToken →
      (tag ≠ p.productTag → validateApp p (tag ++ 0x2F#8 :: build) = .invalid) ∧
      (tag = p.productTag → build = p.runningBuild → validateApp p (tag ++ 0x2F#8 :: build) = .upToDate) ∧
      (tag = p.productTag → build ≠ p.runningBuild → validateApp p (tag ++ 0x2F#8 :: build) = .valid)

/-- R200: a payload shorter than its layout is dropped with no effect, before any other check, in every session state. -/
def Obligations.MalformedPayloadsAreDropped : Prop :=
  ∀ (p : Bytes) (s : State), Running s →
    (p.length < 37 ∨ p.length < 37 + (byteAt p 36).toNat → exec (.initReq p) s = .next s) ∧
    (p.length < 4 → exec (.pageCreateReq p) s = .next s) ∧
    (p.length < 1 ∨ p.length < 1 + (byteAt p 0).toNat → exec (.writeDataEvt p) s = .next s) ∧
    (p.length < 1 → exec (.stateCheckResp p) s = .next s)

/-- R203 with R202: a well-formed INIT_REQ first resets the session; invalid, up-to-date and oversized requests answer
their status and leave the block IDLE with FLASH untouched; an accepted one erases the whole region, answers SUCCESS and
opens a session with the declared size and the un-reversed digest. Exactly one INIT_RESP is handed over. A malformed payload
is dropped. -/
def Obligations.InitReqOutcomes : Prop :=
  (∀ (bad : Bytes) (s : State), Running s → bad.length < 37 ∨ bad.length < 37 + (byteAt bad 36).toNat →
    exec (.initReq bad) s = .next s) ∧
  ∀ (size : BitVec 32) (sha app rest : Bytes) (s : State), Running s → sha.length = 32 → app.length ≤ 255 →
    let p := le32 size ++ sha.reverse ++ [BitVec.ofNat 8 app.length] ++ app ++ rest
    (validateApp s.cfg app = .invalid →
      exec (.initReq p) s =
        .next { transmit [responseFrame s.cfg .initResp .invalidObject] s with dfu := Session.initial }) ∧
    (validateApp s.cfg app = .upToDate →
      exec (.initReq p) s =
        .next { transmit [responseFrame s.cfg .initResp .firmwareAlreadyUpToDate] s with dfu := Session.initial }) ∧
    (validateApp s.cfg app = .valid → s.cfg.flashRegionSize < size.toNat →
      exec (.initReq p) s =
        .next { transmit [responseFrame s.cfg .initResp .insufficientResources] s with dfu := Session.initial }) ∧
    (validateApp s.cfg app = .valid → size.toNat ≤ s.cfg.flashRegionSize →
      ∃ t, exec (.initReq p) s = .next t ∧
        t = { transmit [responseFrame s.cfg .initResp .success] s with
          dfu := { Session.initial with inProgress := true, firmwareSize := size, expectedSha256 := sha }
          flash := t.flash } ∧
        (∀ i < s.cfg.flashRegionSize, t.cell .flash i = some s.cfg.erasedValue) ∧
        ∀ i, s.cfg.flashRegionSize ≤ i → t.cell .flash i = s.cell .flash i)

/-- R204 with R124 and R217: STATUS_REQ answers the 13-byte status with the cumulative offset and the CRC32 of the flashed
bytes followed by the pending page, and writes no state. -/
def Obligations.StatusReportsProgressAndCrc : Prop :=
  ∀ (p flashed page : Bytes) (s : State), Running s → flashed.length = s.dfu.firmwareOffset.toNat →
    page.length = s.dfu.pageOffset.toNat → Holds s .flash 0 flashed → Holds s .pbuf 0 page →
    flashed.length + page.length < 2 ^ 32 →
    exec (.statusReq p) s =
      .next (transmit [wireFrame s.cfg s.cfg.cmd.statusResp
        ([s.cfg.status.success, 0x00#8, 0x04#8, 0x00#8, 0x00#8]
          ++ le32 (BitVec.ofNat 32 (flashed.length + page.length)) ++ le32 (s.cfg.crc32 (flashed ++ page)))] s)

/-- R205: PAGE_CREATE_REQ opens an empty page of the requested size up to 1024 and answers SUCCESS; a larger request, as a
full u32, is rejected; out of a session it is rejected and a Cancel follows; a short payload is dropped. -/
def Obligations.PageCreateOpensPage : Prop :=
  ∀ (req : BitVec 32) (rest : Bytes) (s : State), Running s →
    (s.dfu.inProgress = false →
      exec (.pageCreateReq (le32 req ++ rest)) s =
        .next (transmit [responseFrame s.cfg .pageCreateResp .operationNotPermitted, cancelFrame s.cfg] s)) ∧
    (s.dfu.inProgress = true → 1024 < req.toNat →
      exec (.pageCreateReq (le32 req ++ rest)) s =
        .next (transmit [responseFrame s.cfg .pageCreateResp .insufficientResources] s)) ∧
    (s.dfu.inProgress = true → req.toNat ≤ 1024 →
      ∃ t, exec (.pageCreateReq (le32 req ++ rest)) s = .next t ∧
        t = { transmit [responseFrame s.cfg .pageCreateResp .success] s with
          dfu := { s.dfu with pageOffset := 0, pageSize := t.dfu.pageSize } } ∧
        t.dfu.pageSize.toNat = req.toNat) ∧
    ∀ short : Bytes, short.length < 4 → exec (.pageCreateReq short) s = .next s

/-- R206: WRITE_DATA_EVT appends a chunk that fits the page and moves `page_offset` past it, touching no other byte of PBUF;
a chunk that does not fit is dropped whole; out of a session only a Cancel is emitted; a malformed payload is dropped. -/
def Obligations.WriteDataAppendsChunkOrDropsIt : Prop :=
  ∀ (chunk rest : Bytes) (s : State), Running s → chunk.length ≤ 255 →
    let p := BitVec.ofNat 8 chunk.length :: (chunk ++ rest)
    (s.dfu.inProgress = false → exec (.writeDataEvt p) s = .next (transmit [cancelFrame s.cfg] s)) ∧
    (s.dfu.inProgress = true → s.dfu.pageOffset.toNat + chunk.length ≤ s.dfu.pageSize.toNat →
      ∃ t, exec (.writeDataEvt p) s = .next t ∧
        t = { s with dfu := { s.dfu with pbuf := t.dfu.pbuf, pageOffset := t.dfu.pageOffset } } ∧
        t.dfu.pageOffset.toNat = s.dfu.pageOffset.toNat + chunk.length ∧
        Holds t .pbuf s.dfu.pageOffset.toNat chunk ∧
        ∀ j, j < s.dfu.pageOffset.toNat ∨ s.dfu.pageOffset.toNat + chunk.length ≤ j →
          t.cell .pbuf j = s.cell .pbuf j) ∧
    (s.dfu.inProgress = true → s.dfu.pageSize.toNat < s.dfu.pageOffset.toNat + chunk.length →
      exec (.writeDataEvt p) s = .next s) ∧
    ∀ bad : Bytes, bad.length < 1 ∨ bad.length < 1 + (byteAt bad 0).toNat → exec (.writeDataEvt bad) s = .next s

/-- R207: PAGE_STORE_REQ out of a session is rejected with a Cancel; an empty page answers SUCCESS without touching flash; a
partial page is rejected; none of the three changes the session or FLASH. -/
def Obligations.PageStoreEntryChecks : Prop :=
  ∀ (p : Bytes) (s : State), Running s →
    (s.dfu.inProgress = false →
      exec (.pageStoreReq p) s =
        .next (transmit [responseFrame s.cfg .pageStoreResp .operationNotPermitted, cancelFrame s.cfg] s)) ∧
    (s.dfu.inProgress = true → s.dfu.pageOffset = 0 →
      exec (.pageStoreReq p) s = .next (transmit [responseFrame s.cfg .pageStoreResp .success] s)) ∧
    (s.dfu.inProgress = true → s.dfu.pageOffset ≠ 0 → s.dfu.pageOffset ≠ s.dfu.pageSize →
      exec (.pageStoreReq p) s =
        .next (transmit [responseFrame s.cfg .pageStoreResp .operationNotPermitted] s))

/-- R208 with R77, the failing write: a misaligned or out-of-region write fails with no draw and no change of FLASH; a write
whose draw is `fail` leaves drawn bytes in the word-padded range alone; either answers OPERATION_FAILED and keeps every
DFU field. -/
def Obligations.FailedPageStoreKeepsSession : Prop :=
  ∀ (p : Bytes) (s : State), Running s → s.dfu.inProgress = true → s.dfu.pageOffset ≠ 0 →
    s.dfu.pageOffset = s.dfu.pageSize →
    let w := s.cfg.flashWordBytes
    let off := s.dfu.firmwareOffset.toNat
    let padded := (s.dfu.pageOffset.toNat + w - 1) / w * w
    ((s.cfg.flashBase.toNat + off) % w ≠ 0 ∨ s.cfg.flashRegionSize < off + padded →
      exec (.pageStoreReq p) s = .next (transmit [responseFrame s.cfg .pageStoreResp .operationFailed] s)) ∧
    ((s.cfg.flashBase.toNat + off) % w = 0 → off + padded ≤ s.cfg.flashRegionSize →
      (drawFlash s.draws).1 = .fail →
      ∃ t junk draws, (junk, draws) = drawJunk padded (drawFlash s.draws).2 ∧ junk.length = padded ∧
        exec (.pageStoreReq p) s = .next t ∧
        t = transmit [responseFrame s.cfg .pageStoreResp .operationFailed] { s with flash := t.flash, draws := draws } ∧
        Holds t .flash off junk ∧
        ∀ i, i < off ∨ off + padded ≤ i → t.cell .flash i = s.cell .flash i)

/-- R208 with R77 and R209, a page of several: an admitted write whose draw is `ok` lays the page at `firmware_offset`, pads
the last word with `ERASED_VALUE`, advances the offset, clears the page and answers SUCCESS while the image is not
complete. -/
def Obligations.PageStoreWritesPageAndAdvances : Prop :=
  ∀ (p page : Bytes) (s : State), Running s → s.cfg.Valid → s.dfu.inProgress = true → s.dfu.pageOffset ≠ 0 →
    s.dfu.pageOffset = s.dfu.pageSize → page.length = s.dfu.pageOffset.toNat → Holds s .pbuf 0 page →
    let w := s.cfg.flashWordBytes
    let off := s.dfu.firmwareOffset.toNat
    let padded := (page.length + w - 1) / w * w
    (s.cfg.flashBase.toNat + off) % w = 0 → off + padded ≤ s.cfg.flashRegionSize → (drawFlash s.draws).1 = .ok →
    off + page.length ≠ s.dfu.firmwareSize.toNat →
    ∃ t, exec (.pageStoreReq p) s = .next t ∧
      t = transmit [responseFrame s.cfg .pageStoreResp .success] { s with
        flash := t.flash
        draws := (drawFlash s.draws).2
        dfu := { s.dfu with firmwareOffset := t.dfu.firmwareOffset, pageOffset := 0, pageSize := 0 } } ∧
      t.dfu.firmwareOffset.toNat = off + page.length ∧ Holds t .flash off page ∧
      (∀ i, off + page.length ≤ i → i < off + padded → t.cell .flash i = some s.cfg.erasedValue) ∧
      ∀ i, i < off ∨ off + padded ≤ i → t.cell .flash i = s.cell .flash i

/-- R210: where the last page completes the image and the SHA-256 of exactly the flashed image differs from the expected
digest, PAGE_STORE_REQ answers INVALID_OBJECT, resets the session, keeps the image in FLASH and commits nothing. -/
def Obligations.DigestMismatchResetsSession : Prop :=
  ∀ (p before page : Bytes) (s : State), Running s → s.cfg.Valid → s.dfu.inProgress = true → s.dfu.pageOffset ≠ 0 →
    s.dfu.pageOffset = s.dfu.pageSize → page.length = s.dfu.pageOffset.toNat → Holds s .pbuf 0 page →
    before.length = s.dfu.firmwareOffset.toNat → Holds s .flash 0 before →
    flashAdmits s.cfg (s.cfg.flashBase.toNat + before.length) page.length = true → (drawFlash s.draws).1 = .ok →
    before.length + page.length = s.dfu.firmwareSize.toNat →
    s.cfg.sha256 (before ++ page) ≠ s.dfu.expectedSha256 →
    ∃ t, exec (.pageStoreReq p) s = .next t ∧
      t = transmit [responseFrame s.cfg .pageStoreResp .invalidObject] { s with
        flash := t.flash, draws := (drawFlash s.draws).2, dfu := Session.initial } ∧
      Holds t .flash 0 (before ++ page) ∧
      ∀ i, before.length + paddedLength s.cfg page.length ≤ i → t.cell .flash i = s.cell .flash i

/-- R211 with R79: where the digest matches, PAGE_STORE_REQ answers FIRMWARE_SUCCESSFULLY_UPDATED, resets the session,
records the image size in words rounded up, and halts the block, after which no operation is enabled. -/
def Obligations.MatchingDigestCommitsAndHalts : Prop :=
  ∀ (p before page : Bytes) (s : State), Running s → s.cfg.Valid → s.dfu.inProgress = true → s.dfu.pageOffset ≠ 0 →
    s.dfu.pageOffset = s.dfu.pageSize → page.length = s.dfu.pageOffset.toNat → Holds s .pbuf 0 page →
    before.length = s.dfu.firmwareOffset.toNat → Holds s .flash 0 before →
    flashAdmits s.cfg (s.cfg.flashBase.toNat + before.length) page.length = true → (drawFlash s.draws).1 = .ok →
    before.length + page.length = s.dfu.firmwareSize.toNat →
    s.cfg.sha256 (before ++ page) = s.dfu.expectedSha256 →
    ∃ t u words, exec (.pageStoreReq p) s = .next t ∧
      u = transmit [responseFrame s.cfg .pageStoreResp .firmwareSuccessfullyUpdated] { s with
        flash := t.flash, draws := (drawFlash s.draws).2, dfu := Session.initial } ∧
      t = { u with
        logs := { u.logs with commit := s.logs.commit ++ [words] }
        blk := { s.blk with halted := true } } ∧
      s.dfu.firmwareSize.toNat ≤ words * s.cfg.flashWordBytes ∧
      words * s.cfg.flashWordBytes < s.dfu.firmwareSize.toNat + s.cfg.flashWordBytes ∧
      (∀ i v, exec i t ≠ .next v) ∧
      Holds t .flash 0 (before ++ page) ∧
      ∀ i, before.length + paddedLength s.cfg page.length ≤ i → t.cell .flash i = s.cell .flash i

/-- R212: STATE_CHECK_RESP emits one Cancel where the peer's flag disagrees with the session, nothing where it agrees, and
changes no DFU state; an empty payload is dropped. -/
def Obligations.StateCheckRespCancelsOnDisagreement : Prop :=
  ∀ (flag : Byte) (rest : Bytes) (s : State), Running s →
    (decide (flag ≠ 0) ≠ s.dfu.inProgress →
      exec (.stateCheckResp (flag :: rest)) s = .next (transmit [cancelFrame s.cfg] s)) ∧
    (decide (flag ≠ 0) = s.dfu.inProgress → exec (.stateCheckResp (flag :: rest)) s = .next s) ∧
    exec (.stateCheckResp []) s = .next s

/-- R213 with R44: CANCEL_RESP sets every DFU field and every PBUF byte to its reset value and does nothing else. -/
def Obligations.CancelRespResetsSession : Prop :=
  ∀ (p : Bytes) (s : State), Running s →
    ∃ t, exec (.cancelResp p) s = .next t ∧ t = { s with dfu := t.dfu } ∧
      t.dfu.inProgress = false ∧ t.dfu.firmwareSize = 0 ∧ t.dfu.firmwareOffset = 0 ∧
      t.dfu.expectedSha256 = List.replicate 32 0#8 ∧ t.dfu.pageOffset = 0 ∧ t.dfu.pageSize = 0 ∧
      ∀ j < 1024, t.cell .pbuf j = some 0x00#8

/-- R218, the out-of-session law: while no session is open no handler but Init's and CancelResponse's writes a DFU field;
PageCreate and PageStore answer OPERATION_NOT_PERMITTED and then a Cancel, WriteData a Cancel only, and Status reports
zero progress. -/
def Obligations.OutOfSessionLaw : Prop :=
  ∀ (p : Bytes) (s : State), Running s → s.dfu = Session.initial →
    (∀ i t, isFrame i = true → (∀ q, i ≠ .initReq q) → (∀ q, i ≠ .cancelResp q) → exec i s = .next t →
      t.dfu = s.dfu) ∧
    (4 ≤ p.length → exec (.pageCreateReq p) s =
      .next (transmit [responseFrame s.cfg .pageCreateResp .operationNotPermitted, cancelFrame s.cfg] s)) ∧
    exec (.pageStoreReq p) s =
      .next (transmit [responseFrame s.cfg .pageStoreResp .operationNotPermitted, cancelFrame s.cfg] s) ∧
    (1 ≤ p.length → 1 + (byteAt p 0).toNat ≤ p.length →
      exec (.writeDataEvt p) s = .next (transmit [cancelFrame s.cfg] s)) ∧
    exec (.statusReq p) s =
      .next (transmit [wireFrame s.cfg s.cfg.cmd.statusResp
        ([s.cfg.status.success, 0x00#8, 0x04#8, 0x00#8, 0x00#8] ++ [0x00#8, 0x00#8, 0x00#8, 0x00#8]
          ++ le32 (s.cfg.crc32 []))] s)

/-- R219: in any one operation, FR_POLL among them, the firmware offset stays, returns to 0, or grows by a complete page
after an `ok` flash write. -/
def Obligations.FirmwareOffsetAdvancesOnlyByWrittenPages : Prop :=
  ∀ (i : Instr) (s t : State), Inv s → exec i s = .next t →
    t.dfu.firmwareOffset = s.dfu.firmwareOffset ∨ t.dfu = { t.dfu with firmwareOffset := 0, pageOffset := 0, pageSize := 0 } ∨
    (s.dfu.inProgress = true ∧ s.dfu.pageOffset = s.dfu.pageSize ∧ (drawFlash s.draws).1 = .ok ∧
      t.dfu.firmwareOffset.toNat = s.dfu.firmwareOffset.toNat + s.dfu.pageOffset.toNat)

/-- R263: the dispatched frames and DFU_STATE_CHECK raise no model fault, nor does FR_SEND with a command operand in range;
FR_POLL raises only those of its ring-buffer read. -/
def Obligations.HandlersRaiseNoModelFault : Prop :=
  (∀ (i : Instr) (s t : State), isFrame i = true ∨ i = .dfuStateCheck → exec i s = .next t →
    t.blk.faults = s.blk.faults) ∧
  (∀ (a : BitVec 16) (payload : Bytes) (s t : State), a.extractLsb' 8 8 = 0#8 → exec (.frSend a payload) s = .next t →
    t.blk.faults = s.blk.faults) ∧
  ∀ s t : State, exec .frPoll s = .next t →
    t.blk.faults = s.blk.faults ∨ t.blk.faults = addFault .rbNotInitialised s.blk.faults ∨
      t.blk.faults = addFault .rbUnwrittenRead s.blk.faults

/-! ### The whole block -/

/-- R46: raising a fault and refusing a request add their code to the set; no operation removes a code; only the external
reset clears the set; a state with a fault is no successful end of a run. -/
def Obligations.FaultsAreStickyUntilReset : Prop :=
  (∀ (c d : FaultCode) (s : State),
    hasFault (raiseFault c s).blk.faults d = (decide (d = c) || hasFault s.blk.faults d) ∧
    hasFault (refuseRequest c s).blk.faults d = (decide (d = c) || hasFault s.blk.faults d)) ∧
  (∀ (s t : State), step s = .next t → (∀ rest, s.inbox ≠ .reset :: rest) →
    ∀ c, hasFault s.blk.faults c = true → hasFault t.blk.faults c = true) ∧
  (∀ (s : State) (rest : List Event), s.inbox = .reset :: rest →
    ∃ t, step s = .next t ∧ ∀ c, hasFault t.blk.faults c = false) ∧
  ∀ (s : State) (c : FaultCode), hasFault s.blk.faults c = true → ¬ EndsSuccessfully s

/-- R47: `tx_log` only grows, and only by whole frames of R110 with a payload of at most 127 bytes. -/
def Obligations.TransmitLogGrowsByWholeFrames : Prop :=
  ∀ (i : Instr) (s t : State), exec i s = .next t →
    ∃ frames, t.logs.tx = s.logs.tx ++ frames ∧
      ∀ f ∈ frames, ∃ cmd payload, payload.length ≤ 127 ∧ f = wireFrame s.cfg cmd payload

/-- R45 and R49: an operation either leaves the block running and `commit_log` as it was, or halts it with one entry more
and the session reset. -/
def Obligations.CommitIsTheOnlyWayToHalt : Prop :=
  ∀ (i : Instr) (s t : State), exec i s = .next t →
    (t.blk.halted = false ∧ t.logs.commit = s.logs.commit) ∨
    (t.blk.halted = true ∧ t.dfu = Session.initial ∧ (i = .frPoll ∨ ∃ p, i = .pageStoreReq p) ∧
      ∃ words, t.logs.commit = s.logs.commit ++ [words])

/-- R272, the sharing table: a port operation but FR_POLL leaves the receiver, the session, FLASH, `fwd_log` and
`commit_log` alone, one but FR_SEND and DFU_STATE_CHECK leaves `tx_log` alone too, and a dispatched frame leaves the ring
buffer and the receiver alone. -/
def Obligations.SharingTable : Prop :=
  ∀ (i : Instr) (s t : State), exec i s = .next t →
    (isFrame i = false → i ≠ .frPoll →
      t.fr = s.fr ∧ t.dfu = s.dfu ∧ t.flash = s.flash ∧ t.logs.fwd = s.logs.fwd ∧ t.logs.commit = s.logs.commit ∧
      t.blk.halted = s.blk.halted ∧
      ((∀ a payload, i ≠ .frSend a payload) → i ≠ .dfuStateCheck → t.logs = s.logs ∧ t.draws = s.draws)) ∧
    (isFrame i = true → t.rb = s.rb ∧ t.fr = s.fr ∧ t.result = s.result)

/-- R30: no step writes the configuration. -/
def Obligations.ConfigurationIsFixed : Prop :=
  ∀ s t : State, step s = .next t → t.cfg = s.cfg

/-- R45: while the block is halted no operation is enabled (the model's stop for it is `halted`, log 8), whoever requests
it; only the external reset leaves that state. -/
def Obligations.HaltedEnablesNoOperation : Prop :=
  ∀ s : State, s.blk.halted = true →
    (∀ i, exec i s = .fault .halted) ∧
    (∀ r rest, s.inbox = .request r :: rest → step s = .fault .halted) ∧
    ∀ rest, s.inbox = .reset :: rest → ∃ t, step s = .next t ∧ t.blk.halted = false

/-- The step of a requested operation (model's choices: the inbox as schedule, log 6; the stop of a non-owner, log 7): in a
running block a request of the owning agent that decodes to an instruction runs exactly that instruction on the state less
the request; one of another agent has no step; one with too much data is refused; with no event nothing changes. -/
def Obligations.StepRunsDecodedRequest : Prop :=
  ∀ (r : Request) (rest : List Event) (s : State),
    (Running s → s.inbox = .request r :: rest →
      (∀ i, decodePort r.word r.data = .ok i → owns r.agent i = true →
        step s = exec i { s with inbox := rest }) ∧
      (∀ i, decodePort r.word r.data = .ok i → owns r.agent i = false → step s = .fault .notOwner) ∧
      (65535 < r.data.length → step s = .refused .requestTooLong)) ∧
    (s.inbox = [] → step s = .next s)

/-- R280: the external reset sets `rb.init` false, `fr.pos` 0, every DFU field to its `ResetSession` value, `blk.halted`
false, the fault set and the three logs empty, and keeps FLASH; it is taken in a halted block too. No other step clears
`blk.halted` or a fault. -/
def Obligations.ExternalResetSetsResetColumn : Prop :=
  (∀ (rest : List Event) (s : State), s.inbox = .reset :: rest →
    ∃ t, step s = .next t ∧ t.rb.init = false ∧ t.fr.pos = 0 ∧ t.dfu = Session.initial ∧ t.blk.halted = false ∧
      (∀ c, hasFault t.blk.faults c = false) ∧ t.logs.tx = [] ∧ t.logs.fwd = [] ∧ t.logs.commit = [] ∧
      (∀ a, t.cell .flash a = s.cell .flash a) ∧ (∀ i, t.cell .rba i = none ∧ t.cell .rxp i = none)) ∧
  ∀ s t : State, (∀ rest, s.inbox ≠ .reset :: rest) → step s = .next t →
    (s.blk.halted = true → t.blk.halted = true) ∧
    ∀ c, hasFault s.blk.faults c = true → hasFault t.blk.faults c = true

/-- R53, the values it gives after reset, at `State.reset` (its FLASH is any bytes: nothing is listed). -/
def Obligations.ResetLeavesSpecifiedValues : Prop :=
  State.reset.rb.init = false ∧ rxState State.reset = some .waitPreamble1 ∧ State.reset.dfu = Session.initial ∧
  State.reset.blk = { halted := false, faults := FaultBits.none } ∧
  State.reset.logs = { tx := [], fwd := [], commit := [] } ∧
  (∀ i, State.reset.cell .rba i = none ∧ State.reset.cell .rxp i = none) ∧
  ∀ j < 1024, State.reset.cell .pbuf j = some 0x00#8

/-- R284 and R285: after reset, HOST's RB_INIT with the configured capacity gives the launch state `Boot(c)` (whose
unspecified receiver registers are the model's choice, log 11): initialised, capacity c, empty, every cell unwritten. -/
def Obligations.BootReachesLaunchState : Prop :=
  ∀ (p : Params) (flash : Memory) (d : Draws) (rest : List Event), p.Valid →
    ∃ t, step { State.reset with cfg := p, flash := flash, draws := d, inbox := bootRequest p :: rest } = .next t ∧
      t = boot (BitVec.ofNat 16 p.rbCapacity) p flash d rest ∧ capacity t = p.rbCapacity ∧ isEmpty t = true ∧
      (∀ i, t.cell .rba i = none) ∧ t.fr.pos = 0 ∧ t.dfu = Session.initial ∧ t.blk.faults = FaultBits.none

/-- The invariant of the block's state (10_state.md R33, R37, R38, R43, R49; 20_memory.md R70, R72, R74; and the model's
canonical form of memory) holds after reset. -/
def Obligations.InvHoldsAtReset : Prop := Inv State.reset

/-- Every step keeps the invariant of the block's state, from every state that meets it. -/
def Obligations.EveryStepKeepsInv : Prop :=
  ∀ s t : State, Inv s → step s = .next t → Inv t

/-- From every state that meets the invariant, FR_POLL in a running block completes: no receive position lies beyond R37's
states (so the model's stop `noReceiveState`, log 17, is never reached), as R299 says of every enabled operation. -/
def Obligations.EveryEnabledOperationCompletes : Prop :=
  ∀ (i : Instr) (s : State), Inv s → Running s → ∃ t, exec i s = .next t

/-- Decoding the encoding of a well-formed instruction gives it back, under every valid configuration and with every
operand (R100–R102, R110, R111, R115, R130). -/
def Obligations.DecodeOfEncodeIsIdentity : Prop :=
  ∀ (p : Params) (i : Instr), p.Valid → wellFormed p i = true → decode p (encode p i) = .ok i

/-- R101, R102: request words written out from the selector map decode to their operations. -/
def Obligations.RequestWordsDecode : Prop :=
  decodePort 0x00008 [] = .ok (.rbInit 8) ∧
  decodePort 0x30000 [0x11, 0x22] = .ok (.rbQueueBytes [0x11, 0x22]) ∧
  decodePort 0x5000B [] = .ok (.rbSetWriteIndex 11) ∧
  decodePort 0x80009 [0x00] = .ok (.rbArrayWrite 9 [0x00]) ∧
  decodePort 0xA0000 [] = .ok .frPoll ∧
  decodePort 0xB0010 [0x01] = .ok (.frSend 0x10 [0x01]) ∧
  decodePort 0xFFFFF [] = .ok (.reservedEF true)
end

