-- ==== Sys2Proof/Laws/Config.lean ====
section
/-! SUPPORT. Laws/Config.lean: the configuration at reset is valid; what validity gives. -/

namespace Sys2Proof

theorem Config.params_valid : Config.params.Valid := (@Config.openParams ⟨Config.someValid⟩).property

@[simp] theorem Config.params_fullMode : Config.params.fullMode = .reserveSlot := rfl

@[simp] theorem Config.params_resyncReexamine : Config.params.resyncReexamine = false := rfl

theorem Params.Valid.rbCapacity_range {p : Params} (h : p.Valid) : 2 ≤ p.rbCapacity ∧ p.rbCapacity ≤ 65535 := h.1

theorem Params.Valid.cmd_nodup {p : Params} (h : p.Valid) : p.cmd.all.Nodup := h.2.1.1

theorem Params.Valid.cmd_not_forwarded {p : Params} (h : p.Valid) : ∀ c ∈ p.cmd.all, c ∉ p.forwardSet := h.2.1.2.2

theorem Params.Valid.status_nodup {p : Params} (h : p.Valid) : p.status.all.Nodup := h.2.2.1

theorem Params.Valid.wordBytes_pos {p : Params} (h : p.Valid) : 1 ≤ p.flashWordBytes := h.2.2.2.1.1

theorem Params.Valid.region_fits {p : Params} (h : p.Valid) : p.flashRegionSize + Config.maxPage < 2 ^ 32 :=
  h.2.2.2.1.2.2.2

theorem Params.Valid.tag_no_slash {p : Params} (h : p.Valid) : Config.slash ∉ p.productTag := h.2.2.2.2.1

/-- Every digest is 32 bytes. -/
theorem Params.Valid.sha256_length {p : Params} (h : p.Valid) (s : Bytes) : (p.sha256 s).length = 32 := by
  unfold Params.sha256 tableEntry
  split
  · next e he => exact h.2.2.2.2.2 e (List.mem_of_find?_eq_some he)
  · simp

end Sys2Proof
end

