-- ==== Sys2Proof/Laws/Decode.lean ====
section
/-! SUPPORT. Laws/Decode.lean: the fields of a request word and the length of a frame. -/

namespace Sys2Proof

/-- A request word's selector is the one it was built from. -/
@[simp] theorem requestOp_requestWord (op : Nat) (a : BitVec 16) (h : op < 16) : requestOp (requestWord op a) = op := by
  have hbits : (requestWord op a).extractLsb' 16 4 = BitVec.ofNat 4 op := by
    unfold requestWord
    ext i hi
    rw [BitVec.getElem_extractLsb', BitVec.getLsbD_append, if_neg (by omega)]
    rw [show 16 + i - 16 = i by omega, BitVec.getLsbD_eq_getElem hi]
  rw [requestOp, hbits, BitVec.toNat_ofNat, Nat.mod_eq_of_lt h]

/-- A request word's operand is the one it was built from. -/
@[simp] theorem requestA_requestWord (op : Nat) (a : BitVec 16) : requestA (requestWord op a) = a := by
  unfold requestA requestWord
  ext i hi
  rw [BitVec.getElem_extractLsb', BitVec.getLsbD_append, if_pos (by omega)]
  simp [BitVec.getLsbD_eq_getElem hi]

/-- A frame is six bytes longer than its payload (30_encoding.md R110). -/
@[simp] theorem buildFrame_length (p : Params) (cmd : Byte) (payload : Bytes) :
    (buildFrame p cmd payload).length = payload.length + 6 := by
  simp [buildFrame, le16]

end Sys2Proof
end

