-- ==== Sys2Proof/Laws/Memory.lean ====
section
/-! SUPPORT. Laws/Memory.lean: what a memory write does to every cell, and that it keeps the canonical form. -/

namespace Sys2Proof.Machine

theorem memRead_nil (sp : Space) (x : Nat) : memRead sp [] x = sp.unlisted := rfl

/-! ### Lookup in the parts a write is made of -/

/-- A filter that keeps every entry of an index keeps the lookup of that index. -/
theorem find_filter_kept (m : Memory) (p : Host.Cell → Bool) (x : Nat) (h : ∀ c : Host.Cell, c.1 = x → p c = true) :
    (m.filter p).find? (fun c => c.1 == x) = m.find? (fun c => c.1 == x) := by
  induction m with
  | nil => rfl
  | cons c m ih =>
    by_cases hp : p c = true
    · simp [List.filter_cons_of_pos hp, List.find?_cons, ih]
    · have hx : (c.1 == x) = false := by
        rw [beq_eq_false_iff_ne]
        exact fun e => hp (h c e)
      simp [hp, hx, ih]

/-- A filter that keeps no entry of an index has no lookup of that index. -/
theorem find_filter_dropped (m : Memory) (p : Host.Cell → Bool) (x : Nat) (h : ∀ c : Host.Cell, c.1 = x → p c = false) :
    (m.filter p).find? (fun c => c.1 == x) = none := by
  rw [List.find?_eq_none]
  intro c hc hx
  have hp := (List.mem_filter.mp hc).2
  rw [h c (beq_iff_eq.mp hx)] at hp
  cases hp

/-- Every index of laid cells lies in their range. -/
theorem mem_cellsFrom {a : Nat} {bs : Bytes} {c : Host.Cell} (h : c ∈ cellsFrom a bs) :
    a ≤ c.1 ∧ c.1 < a + bs.length := by
  induction bs generalizing a with
  | nil => cases h
  | cons b bs ih =>
    rcases List.mem_cons.mp h with rfl | h
    · simp
    · have := ih h
      simp only [List.length_cons]
      omega

/-- Laid cells stand in rising order. -/
theorem cellsFrom_sorted (a : Nat) (bs : Bytes) : (cellsFrom a bs).Pairwise (fun x y => x.1 < y.1) := by
  induction bs generalizing a with
  | nil => exact List.Pairwise.nil
  | cons b bs ih =>
    refine List.Pairwise.cons (fun c hc => ?_) (ih (a + 1))
    have := (mem_cellsFrom hc).1
    simp only at *
    omega

theorem memRead_cons (sp : Space) (c : Host.Cell) (m : Memory) (x : Nat) :
    memRead sp (c :: m) x = if c.1 = x then some c.2 else memRead sp m x := by
  by_cases h : c.1 = x <;> simp [memRead, h]

/-- An index none of whose entries is in the memory reads as unlisted. -/
theorem memRead_absent (sp : Space) (m : Memory) (x : Nat) (h : ∀ c ∈ m, c.1 ≠ x) : memRead sp m x = sp.unlisted := by
  have : m.find? (fun c => c.1 == x) = none := by
    rw [List.find?_eq_none]
    intro c hc he
    exact h c hc (beq_iff_eq.mp he)
  simp only [memRead, this]

/-- The entries of laid cells that are worth listing: those not equal to what an unlisted index reads as. -/
theorem memRead_cellsFrom (sp : Space) (a : Nat) (bs : Bytes) (x : Nat) (ha : a ≤ x) (hx : x < a + bs.length) :
    memRead sp ((cellsFrom a bs).filter (fun c => decide (some c.2 ≠ sp.unlisted))) x = bs[x - a]? := by
  induction bs generalizing a with
  | nil => simp at hx; omega
  | cons b bs ih =>
    simp only [List.length_cons] at hx
    rcases Nat.eq_or_lt_of_le ha with rfl | hlt
    · by_cases hb : some b = sp.unlisted
      · rw [cellsFrom, List.filter_cons_of_neg (by simp [hb]), memRead_absent]
        · simp [hb]
        · intro c hc
          have := (mem_cellsFrom (List.mem_filter.mp hc).1).1
          omega
      · rw [cellsFrom, List.filter_cons_of_pos (by simp [hb]), memRead_cons]
        simp
    · have hget : (b :: bs)[x - a]? = bs[x - (a + 1)]? := by
        rw [show x - a = (x - (a + 1)) + 1 by omega, List.getElem?_cons_succ]
      rw [hget, ← ih (a + 1) (by omega) (by omega), cellsFrom]
      by_cases hb : some b = sp.unlisted
      · rw [List.filter_cons_of_neg (by simp [hb])]
      · rw [List.filter_cons_of_pos (by simp [hb]), memRead_cons, if_neg (by simp only; omega)]

/-! ### What a write does -/

/-- A cell inside the written range holds the byte written there. -/
theorem memRead_memWrite_inside (sp : Space) (m : Memory) (a : Nat) (bs : Bytes) (x : Nat) (ha : a ≤ x)
    (hx : x < a + bs.length) : memRead sp (memWrite sp m a bs) x = bs[x - a]? := by
  have h1 := find_filter_dropped m (fun c => decide (c.1 < a)) x (by intro c hc; simp; omega)
  have h3 := find_filter_dropped m (fun c => decide (a + bs.length ≤ c.1)) x (by intro c hc; simp; omega)
  have h2 := memRead_cellsFrom sp a bs x ha hx
  rw [← h2]
  simp only [memRead, memWrite, List.find?_append, h1, h3, Option.none_or, Option.or_none]

/-- A cell outside the written range is unchanged. -/
theorem memRead_memWrite_outside (sp : Space) (m : Memory) (a : Nat) (bs : Bytes) (x : Nat)
    (h : x < a ∨ a + bs.length ≤ x) : memRead sp (memWrite sp m a bs) x = memRead sp m x := by
  have h2 : ((cellsFrom a bs).filter (fun c => decide (some c.2 ≠ sp.unlisted))).find? (fun c => c.1 == x) = none := by
    rw [List.find?_eq_none]
    intro c hc he
    have := mem_cellsFrom (List.mem_filter.mp hc).1
    have := beq_iff_eq.mp he
    omega
  rcases h with h | h
  · have h1 := find_filter_kept m (fun c => decide (c.1 < a)) x (by intro c hc; simp; omega)
    have h3 := find_filter_dropped m (fun c => decide (a + bs.length ≤ c.1)) x (by intro c hc; simp; omega)
    simp only [memRead, memWrite, List.find?_append, h1, h2, h3, Option.or_none]
  · have h1 := find_filter_dropped m (fun c => decide (c.1 < a)) x (by intro c hc; simp; omega)
    have h3 := find_filter_kept m (fun c => decide (a + bs.length ≤ c.1)) x (by intro c hc; simp; omega)
    simp only [memRead, memWrite, List.find?_append, h1, h2, h3, Option.none_or]

/-- A write of one byte, cell by cell. -/
theorem memRead_memWrite_one (sp : Space) (m : Memory) (a : Nat) (b : Byte) (x : Nat) :
    memRead sp (memWrite sp m a [b]) x = if x = a then some b else memRead sp m x := by
  split
  · next h => subst h; rw [memRead_memWrite_inside sp m x [b] x (Nat.le_refl x) (by simp)]; simp
  · next h => exact memRead_memWrite_outside sp m a [b] x (by simp only [List.length_singleton]; omega)

/-- The indices of a written memory: old ones, or inside the written range. -/
theorem mem_memWrite {sp : Space} {m : Memory} {a : Nat} {bs : Bytes} {c : Host.Cell} (h : c ∈ memWrite sp m a bs) :
    c ∈ m ∨ (a ≤ c.1 ∧ c.1 < a + bs.length) := by
  simp only [memWrite, List.mem_append, List.mem_filter] at h
  rcases h with (h | h) | h
  · exact .inl h.1
  · exact .inr (mem_cellsFrom h.1)
  · exact .inl h.1

/-- A write keeps the canonical form. -/
theorem memWrite_wf (sp : Space) (m : Memory) (a : Nat) (bs : Bytes) (h : Memory.wf sp m) :
    Memory.wf sp (memWrite sp m a bs) := by
  refine ⟨?_, ?_⟩
  · unfold memWrite
    rw [List.pairwise_append, List.pairwise_append]
    refine ⟨⟨h.1.filter _, (cellsFrom_sorted a bs).filter _, ?_⟩, h.1.filter _, ?_⟩
    · intro x hx y hy
      have h1 := of_decide_eq_true (List.mem_filter.mp hx).2
      have h2 := (mem_cellsFrom (List.mem_filter.mp hy).1).1
      omega
    · intro x hx y hy
      have h2 := of_decide_eq_true (List.mem_filter.mp hy).2
      rcases List.mem_append.mp hx with hx | hx
      · have h1 := of_decide_eq_true (List.mem_filter.mp hx).2
        omega
      · have h1 := (mem_cellsFrom (List.mem_filter.mp hx).1).2
        omega
  · intro c hc
    simp only [memWrite, List.mem_append, List.mem_filter] at hc
    rcases hc with (hc | hc) | hc
    · exact h.2 c hc.1
    · exact of_decide_eq_true hc.2
    · exact h.2 c hc.1

/-- The empty memory is canonical. -/
theorem nil_wf (sp : Space) : Memory.wf sp [] := ⟨List.Pairwise.nil, fun _ h => nomatch h⟩

/-! ### Reading a range -/

@[simp] theorem memBytes_length (sp : Space) (m : Memory) (a n : Nat) (f : Nat → Byte) :
    (memBytes sp m a n f).length = n := by simp [memBytes]

/-- A range whose cells hold the bytes of a string reads as that string. -/
theorem memBytes_eq (sp : Space) (m : Memory) (a : Nat) (bs : Bytes) (f : Nat → Byte)
    (h : ∀ (k : Nat) (hk : k < bs.length), memRead sp m (a + k) = some bs[k]) :
    memBytes sp m a bs.length f = bs := by
  apply List.ext_getElem
  · simp
  · intro k h1 h2
    simp [memBytes, h k h2]

end Sys2Proof.Machine
end

