-- ==== Sys2Proof/Laws/State.lean ====
section
/-! SUPPORT. Laws/State.lean: for each named update of the state, each field after it. -/

namespace Sys2Proof.Machine

/-! ### ret -/

@[simp] theorem ret_cfg (r : Result) (s : State) : (ret r s).cfg = s.cfg := rfl
@[simp] theorem ret_rb (r : Result) (s : State) : (ret r s).rb = s.rb := rfl
@[simp] theorem ret_fr (r : Result) (s : State) : (ret r s).fr = s.fr := rfl
@[simp] theorem ret_dfu (r : Result) (s : State) : (ret r s).dfu = s.dfu := rfl
@[simp] theorem ret_blk (r : Result) (s : State) : (ret r s).blk = s.blk := rfl
@[simp] theorem ret_flash (r : Result) (s : State) : (ret r s).flash = s.flash := rfl
@[simp] theorem ret_logs (r : Result) (s : State) : (ret r s).logs = s.logs := rfl
@[simp] theorem ret_draws (r : Result) (s : State) : (ret r s).draws = s.draws := rfl
@[simp] theorem ret_inbox (r : Result) (s : State) : (ret r s).inbox = s.inbox := rfl
@[simp] theorem ret_result (r : Result) (s : State) : (ret r s).result = r := rfl

/-! ### setRd -/

@[simp] theorem setRd_cfg (n : Nat) (s : State) : (setRd n s).cfg = s.cfg := rfl
@[simp] theorem setRd_rb (n : Nat) (s : State) : (setRd n s).rb = { s.rb with rd := BitVec.ofNat 16 n } := rfl
@[simp] theorem setRd_fr (n : Nat) (s : State) : (setRd n s).fr = s.fr := rfl
@[simp] theorem setRd_dfu (n : Nat) (s : State) : (setRd n s).dfu = s.dfu := rfl
@[simp] theorem setRd_blk (n : Nat) (s : State) : (setRd n s).blk = s.blk := rfl
@[simp] theorem setRd_flash (n : Nat) (s : State) : (setRd n s).flash = s.flash := rfl
@[simp] theorem setRd_logs (n : Nat) (s : State) : (setRd n s).logs = s.logs := rfl
@[simp] theorem setRd_draws (n : Nat) (s : State) : (setRd n s).draws = s.draws := rfl
@[simp] theorem setRd_inbox (n : Nat) (s : State) : (setRd n s).inbox = s.inbox := rfl
@[simp] theorem setRd_result (n : Nat) (s : State) : (setRd n s).result = s.result := rfl

/-! ### setWr -/

@[simp] theorem setWr_cfg (n : Nat) (s : State) : (setWr n s).cfg = s.cfg := rfl
@[simp] theorem setWr_rb (n : Nat) (s : State) : (setWr n s).rb = { s.rb with wr := BitVec.ofNat 16 n } := rfl
@[simp] theorem setWr_fr (n : Nat) (s : State) : (setWr n s).fr = s.fr := rfl
@[simp] theorem setWr_dfu (n : Nat) (s : State) : (setWr n s).dfu = s.dfu := rfl
@[simp] theorem setWr_blk (n : Nat) (s : State) : (setWr n s).blk = s.blk := rfl
@[simp] theorem setWr_flash (n : Nat) (s : State) : (setWr n s).flash = s.flash := rfl
@[simp] theorem setWr_logs (n : Nat) (s : State) : (setWr n s).logs = s.logs := rfl
@[simp] theorem setWr_draws (n : Nat) (s : State) : (setWr n s).draws = s.draws := rfl
@[simp] theorem setWr_inbox (n : Nat) (s : State) : (setWr n s).inbox = s.inbox := rfl
@[simp] theorem setWr_result (n : Nat) (s : State) : (setWr n s).result = s.result := rfl

/-! ### setRba -/

@[simp] theorem setRba_cfg (m : Memory) (s : State) : (setRba m s).cfg = s.cfg := rfl
@[simp] theorem setRba_rb (m : Memory) (s : State) : (setRba m s).rb = { s.rb with rba := m } := rfl
@[simp] theorem setRba_fr (m : Memory) (s : State) : (setRba m s).fr = s.fr := rfl
@[simp] theorem setRba_dfu (m : Memory) (s : State) : (setRba m s).dfu = s.dfu := rfl
@[simp] theorem setRba_blk (m : Memory) (s : State) : (setRba m s).blk = s.blk := rfl
@[simp] theorem setRba_flash (m : Memory) (s : State) : (setRba m s).flash = s.flash := rfl
@[simp] theorem setRba_logs (m : Memory) (s : State) : (setRba m s).logs = s.logs := rfl
@[simp] theorem setRba_draws (m : Memory) (s : State) : (setRba m s).draws = s.draws := rfl
@[simp] theorem setRba_inbox (m : Memory) (s : State) : (setRba m s).inbox = s.inbox := rfl
@[simp] theorem setRba_result (m : Memory) (s : State) : (setRba m s).result = s.result := rfl

/-! ### setFr -/

@[simp] theorem setFr_cfg (f : Receiver) (s : State) : (setFr f s).cfg = s.cfg := rfl
@[simp] theorem setFr_rb (f : Receiver) (s : State) : (setFr f s).rb = s.rb := rfl
@[simp] theorem setFr_fr (f : Receiver) (s : State) : (setFr f s).fr = f := rfl
@[simp] theorem setFr_dfu (f : Receiver) (s : State) : (setFr f s).dfu = s.dfu := rfl
@[simp] theorem setFr_blk (f : Receiver) (s : State) : (setFr f s).blk = s.blk := rfl
@[simp] theorem setFr_flash (f : Receiver) (s : State) : (setFr f s).flash = s.flash := rfl
@[simp] theorem setFr_logs (f : Receiver) (s : State) : (setFr f s).logs = s.logs := rfl
@[simp] theorem setFr_draws (f : Receiver) (s : State) : (setFr f s).draws = s.draws := rfl
@[simp] theorem setFr_inbox (f : Receiver) (s : State) : (setFr f s).inbox = s.inbox := rfl
@[simp] theorem setFr_result (f : Receiver) (s : State) : (setFr f s).result = s.result := rfl

/-! ### setDfu -/

@[simp] theorem setDfu_cfg (d : Session) (s : State) : (setDfu d s).cfg = s.cfg := rfl
@[simp] theorem setDfu_rb (d : Session) (s : State) : (setDfu d s).rb = s.rb := rfl
@[simp] theorem setDfu_fr (d : Session) (s : State) : (setDfu d s).fr = s.fr := rfl
@[simp] theorem setDfu_dfu (d : Session) (s : State) : (setDfu d s).dfu = d := rfl
@[simp] theorem setDfu_blk (d : Session) (s : State) : (setDfu d s).blk = s.blk := rfl
@[simp] theorem setDfu_flash (d : Session) (s : State) : (setDfu d s).flash = s.flash := rfl
@[simp] theorem setDfu_logs (d : Session) (s : State) : (setDfu d s).logs = s.logs := rfl
@[simp] theorem setDfu_draws (d : Session) (s : State) : (setDfu d s).draws = s.draws := rfl
@[simp] theorem setDfu_inbox (d : Session) (s : State) : (setDfu d s).inbox = s.inbox := rfl
@[simp] theorem setDfu_result (d : Session) (s : State) : (setDfu d s).result = s.result := rfl

/-! ### setFlash -/

@[simp] theorem setFlash_cfg (m : Memory) (s : State) : (setFlash m s).cfg = s.cfg := rfl
@[simp] theorem setFlash_rb (m : Memory) (s : State) : (setFlash m s).rb = s.rb := rfl
@[simp] theorem setFlash_fr (m : Memory) (s : State) : (setFlash m s).fr = s.fr := rfl
@[simp] theorem setFlash_dfu (m : Memory) (s : State) : (setFlash m s).dfu = s.dfu := rfl
@[simp] theorem setFlash_blk (m : Memory) (s : State) : (setFlash m s).blk = s.blk := rfl
@[simp] theorem setFlash_flash (m : Memory) (s : State) : (setFlash m s).flash = m := rfl
@[simp] theorem setFlash_logs (m : Memory) (s : State) : (setFlash m s).logs = s.logs := rfl
@[simp] theorem setFlash_draws (m : Memory) (s : State) : (setFlash m s).draws = s.draws := rfl
@[simp] theorem setFlash_inbox (m : Memory) (s : State) : (setFlash m s).inbox = s.inbox := rfl
@[simp] theorem setFlash_result (m : Memory) (s : State) : (setFlash m s).result = s.result := rfl

/-! ### setDraws -/

@[simp] theorem setDraws_cfg (d : Draws) (s : State) : (setDraws d s).cfg = s.cfg := rfl
@[simp] theorem setDraws_rb (d : Draws) (s : State) : (setDraws d s).rb = s.rb := rfl
@[simp] theorem setDraws_fr (d : Draws) (s : State) : (setDraws d s).fr = s.fr := rfl
@[simp] theorem setDraws_dfu (d : Draws) (s : State) : (setDraws d s).dfu = s.dfu := rfl
@[simp] theorem setDraws_blk (d : Draws) (s : State) : (setDraws d s).blk = s.blk := rfl
@[simp] theorem setDraws_flash (d : Draws) (s : State) : (setDraws d s).flash = s.flash := rfl
@[simp] theorem setDraws_logs (d : Draws) (s : State) : (setDraws d s).logs = s.logs := rfl
@[simp] theorem setDraws_draws (d : Draws) (s : State) : (setDraws d s).draws = d := rfl
@[simp] theorem setDraws_inbox (d : Draws) (s : State) : (setDraws d s).inbox = s.inbox := rfl
@[simp] theorem setDraws_result (d : Draws) (s : State) : (setDraws d s).result = s.result := rfl

/-! ### pushTx -/

@[simp] theorem pushTx_cfg (f : Bytes) (s : State) : (pushTx f s).cfg = s.cfg := rfl
@[simp] theorem pushTx_rb (f : Bytes) (s : State) : (pushTx f s).rb = s.rb := rfl
@[simp] theorem pushTx_fr (f : Bytes) (s : State) : (pushTx f s).fr = s.fr := rfl
@[simp] theorem pushTx_dfu (f : Bytes) (s : State) : (pushTx f s).dfu = s.dfu := rfl
@[simp] theorem pushTx_blk (f : Bytes) (s : State) : (pushTx f s).blk = s.blk := rfl
@[simp] theorem pushTx_flash (f : Bytes) (s : State) : (pushTx f s).flash = s.flash := rfl
@[simp] theorem pushTx_logs (f : Bytes) (s : State) : (pushTx f s).logs = { s.logs with tx := s.logs.tx ++ [f] } := rfl
@[simp] theorem pushTx_draws (f : Bytes) (s : State) : (pushTx f s).draws = s.draws := rfl
@[simp] theorem pushTx_inbox (f : Bytes) (s : State) : (pushTx f s).inbox = s.inbox := rfl
@[simp] theorem pushTx_result (f : Bytes) (s : State) : (pushTx f s).result = s.result := rfl

/-! ### pushFwd -/

@[simp] theorem pushFwd_cfg (c : Byte) (p : Bytes) (s : State) : (pushFwd c p s).cfg = s.cfg := rfl
@[simp] theorem pushFwd_rb (c : Byte) (p : Bytes) (s : State) : (pushFwd c p s).rb = s.rb := rfl
@[simp] theorem pushFwd_fr (c : Byte) (p : Bytes) (s : State) : (pushFwd c p s).fr = s.fr := rfl
@[simp] theorem pushFwd_dfu (c : Byte) (p : Bytes) (s : State) : (pushFwd c p s).dfu = s.dfu := rfl
@[simp] theorem pushFwd_blk (c : Byte) (p : Bytes) (s : State) : (pushFwd c p s).blk = s.blk := rfl
@[simp] theorem pushFwd_flash (c : Byte) (p : Bytes) (s : State) : (pushFwd c p s).flash = s.flash := rfl
@[simp] theorem pushFwd_logs (c : Byte) (p : Bytes) (s : State) : (pushFwd c p s).logs = { s.logs with fwd := s.logs.fwd ++ [(c, p)] } := rfl
@[simp] theorem pushFwd_draws (c : Byte) (p : Bytes) (s : State) : (pushFwd c p s).draws = s.draws := rfl
@[simp] theorem pushFwd_inbox (c : Byte) (p : Bytes) (s : State) : (pushFwd c p s).inbox = s.inbox := rfl
@[simp] theorem pushFwd_result (c : Byte) (p : Bytes) (s : State) : (pushFwd c p s).result = s.result := rfl

/-! ### raiseFault -/

@[simp] theorem raiseFault_cfg (c : FaultCode) (s : State) : (raiseFault c s).cfg = s.cfg := rfl
@[simp] theorem raiseFault_rb (c : FaultCode) (s : State) : (raiseFault c s).rb = s.rb := rfl
@[simp] theorem raiseFault_fr (c : FaultCode) (s : State) : (raiseFault c s).fr = s.fr := rfl
@[simp] theorem raiseFault_dfu (c : FaultCode) (s : State) : (raiseFault c s).dfu = s.dfu := rfl
@[simp] theorem raiseFault_blk (c : FaultCode) (s : State) : (raiseFault c s).blk = { s.blk with faults := addFault c s.blk.faults } := rfl
@[simp] theorem raiseFault_flash (c : FaultCode) (s : State) : (raiseFault c s).flash = s.flash := rfl
@[simp] theorem raiseFault_logs (c : FaultCode) (s : State) : (raiseFault c s).logs = s.logs := rfl
@[simp] theorem raiseFault_draws (c : FaultCode) (s : State) : (raiseFault c s).draws = s.draws := rfl
@[simp] theorem raiseFault_inbox (c : FaultCode) (s : State) : (raiseFault c s).inbox = s.inbox := rfl
@[simp] theorem raiseFault_result (c : FaultCode) (s : State) : (raiseFault c s).result = s.result := rfl

/-! ### resetSession -/

@[simp] theorem resetSession_cfg (s : State) : (resetSession s).cfg = s.cfg := rfl
@[simp] theorem resetSession_rb (s : State) : (resetSession s).rb = s.rb := rfl
@[simp] theorem resetSession_fr (s : State) : (resetSession s).fr = s.fr := rfl
@[simp] theorem resetSession_dfu (s : State) : (resetSession s).dfu = Session.initial := rfl
@[simp] theorem resetSession_blk (s : State) : (resetSession s).blk = s.blk := rfl
@[simp] theorem resetSession_flash (s : State) : (resetSession s).flash = s.flash := rfl
@[simp] theorem resetSession_logs (s : State) : (resetSession s).logs = s.logs := rfl
@[simp] theorem resetSession_draws (s : State) : (resetSession s).draws = s.draws := rfl
@[simp] theorem resetSession_inbox (s : State) : (resetSession s).inbox = s.inbox := rfl
@[simp] theorem resetSession_result (s : State) : (resetSession s).result = s.result := rfl

/-! ### commitAndReboot -/

@[simp] theorem commitAndReboot_cfg (n : Nat) (s : State) : (commitAndReboot n s).cfg = s.cfg := rfl
@[simp] theorem commitAndReboot_rb (n : Nat) (s : State) : (commitAndReboot n s).rb = s.rb := rfl
@[simp] theorem commitAndReboot_fr (n : Nat) (s : State) : (commitAndReboot n s).fr = s.fr := rfl
@[simp] theorem commitAndReboot_dfu (n : Nat) (s : State) : (commitAndReboot n s).dfu = s.dfu := rfl
@[simp] theorem commitAndReboot_blk (n : Nat) (s : State) : (commitAndReboot n s).blk = { s.blk with halted := true } := rfl
@[simp] theorem commitAndReboot_flash (n : Nat) (s : State) : (commitAndReboot n s).flash = s.flash := rfl
@[simp] theorem commitAndReboot_logs (n : Nat) (s : State) : (commitAndReboot n s).logs = { s.logs with commit := s.logs.commit ++ [n] } := rfl
@[simp] theorem commitAndReboot_draws (n : Nat) (s : State) : (commitAndReboot n s).draws = s.draws := rfl
@[simp] theorem commitAndReboot_inbox (n : Nat) (s : State) : (commitAndReboot n s).inbox = s.inbox := rfl
@[simp] theorem commitAndReboot_result (n : Nat) (s : State) : (commitAndReboot n s).result = s.result := rfl

end Sys2Proof.Machine
end

