-- ==== Sys2Proof/Laws/Ops.lean ====
section
/-! SUPPORT. Laws/Ops.lean: one lemma for each shared operation, saying all it can do. -/

namespace Sys2Proof.Machine

/-! ### Cursor arithmetic -/

/-- The remainder of R12, as an integer. -/
theorem modSub_cast (a b c : Nat) (hc : 0 < c) : ((modSub a b c : Nat) : Int) = ((a : Int) - b) % c := by
  unfold modSub
  have := Int.emod_nonneg ((a : Int) - b) (show (c : Int) ≠ 0 by omega)
  omega

theorem modSub_lt (a b c : Nat) (hc : 0 < c) : modSub a b c < c := by
  have h := modSub_cast a b c hc
  have := Int.emod_lt_of_pos ((a : Int) - b) (show (0 : Int) < c by omega)
  omega

theorem modSub_of_le (a b c : Nat) (ha : a < c) (h : b ≤ a) : modSub a b c = a - b := by
  have h1 := modSub_cast a b c (by omega)
  rw [Int.emod_eq_of_lt (by omega) (by omega)] at h1
  omega

theorem modSub_of_lt (a b c : Nat) (hb : b < c) (h : a < b) : modSub a b c = a + c - b := by
  have h1 := modSub_cast a b c (by omega)
  rw [show (a : Int) - b = (a + c - b) + c * (-1) by ring, Int.add_mul_emod_self_left,
    Int.emod_eq_of_lt (by omega) (by omega)] at h1
  omega

/-- Both cases at once, for values held modulo `c`. -/
theorem modSub_eq (a b c : Nat) (ha : a < c) (hb : b < c) :
    modSub a b c = if b ≤ a then a - b else a + c - b := by
  split
  · next h => exact modSub_of_le a b c ha h
  · next h => exact modSub_of_lt a b c hb (by omega)

/-- A sum of two values held modulo `c`, taken modulo `c`. -/
theorem add_mod_eq (a b c : Nat) (ha : a < c) (hb : b ≤ c) : (a + b) % c = if a + b < c then a + b else a + b - c := by
  split
  · next h => exact Nat.mod_eq_of_lt h
  · next h => rw [Nat.mod_eq_sub_mod (by omega), Nat.mod_eq_of_lt (by omega)]

/-! ### Enabling -/

@[simp] theorem whenRunning_running {s : State} (h : Running s) (t : State) : whenRunning s t = .next t := by
  simp [whenRunning, h]

@[simp] theorem whenRunning_halted {s : State} (h : s.blk.halted = true) (t : State) :
    whenRunning s t = .fault .halted := by simp [whenRunning, h]

/-- A gated operation answers a next state exactly where the block runs. -/
theorem whenRunning_next {s t u : State} (h : whenRunning s t = .next u) : Running s ∧ u = t := by
  unfold whenRunning at h
  split at h
  · cases h
  · next hr => exact ⟨by simpa using hr, (Host.Outcome.next.inj h).symm⟩

@[simp] theorem whenInitialised_init {s : State} (h : s.rb.init = true) (r : Result) (t : State) :
    whenInitialised r s t = t := by simp [whenInitialised, h]

@[simp] theorem whenInitialised_uninit {s : State} (h : s.rb.init = false) (r : Result) (t : State) :
    whenInitialised r s t = ret r (raiseFault .rbNotInitialised s) := by simp [whenInitialised, h]

/-! ### Fault bits -/

/-- The set with a code added holds that code and what it held (R46). -/
theorem hasFault_addFault (f : FaultBits) (c d : FaultCode) :
    hasFault (addFault c f) d = (decide (d = c) || hasFault f d) := by
  cases c <;> cases d <;> simp [addFault, hasFault]

theorem hasFault_none (c : FaultCode) : hasFault FaultBits.none c = false := by cases c <;> rfl

/-- Two sets that hold the same codes are equal. -/
theorem faultBits_ext (f g : FaultBits) (h : ∀ c, hasFault f c = hasFault g c) : f = g := by
  obtain ⟨f1, f2, f3, f4, f5, f6, f7, f8⟩ := f
  obtain ⟨g1, g2, g3, g4, g5, g6, g7, g8⟩ := g
  have h1 := h .rbNotInitialised
  have h2 := h .rbFullAmbiguous
  have h3 := h .rbProducerOverrun
  have h4 := h .rbConsumerOveradvance
  have h5 := h .rbBadIndex
  have h6 := h .rbUnwrittenRead
  have h7 := h .refusedOpcode
  have h8 := h .refusedOperand
  simp only [hasFault] at *
  simp [*]

/-! ### Frames handed to the transmit facility -/

/-- The frame the encoder builds is R110's. -/
theorem buildFrame_eq (p : Params) (cmd : Byte) (payload : Bytes) : buildFrame p cmd payload = wireFrame p cmd payload := rfl

@[simp] theorem transmit_cfg (fs : List Bytes) (s : State) : (transmit fs s).cfg = s.cfg := rfl
@[simp] theorem transmit_rb (fs : List Bytes) (s : State) : (transmit fs s).rb = s.rb := rfl
@[simp] theorem transmit_fr (fs : List Bytes) (s : State) : (transmit fs s).fr = s.fr := rfl
@[simp] theorem transmit_dfu (fs : List Bytes) (s : State) : (transmit fs s).dfu = s.dfu := rfl
@[simp] theorem transmit_blk (fs : List Bytes) (s : State) : (transmit fs s).blk = s.blk := rfl
@[simp] theorem transmit_flash (fs : List Bytes) (s : State) : (transmit fs s).flash = s.flash := rfl
@[simp] theorem transmit_inbox (fs : List Bytes) (s : State) : (transmit fs s).inbox = s.inbox := rfl
@[simp] theorem transmit_result (fs : List Bytes) (s : State) : (transmit fs s).result = s.result := rfl
@[simp] theorem transmit_fwd (fs : List Bytes) (s : State) : (transmit fs s).logs.fwd = s.logs.fwd := rfl
@[simp] theorem transmit_commit (fs : List Bytes) (s : State) : (transmit fs s).logs.commit = s.logs.commit := rfl

/-- A frame the encoder refuses takes no draw (R181). -/
theorem emit_oversize {payload : Bytes} (h : Config.maxPayload < payload.length) (cmd : Byte) (s : State) :
    emit cmd payload s = (false, s) := by simp [emit, h]

/-- A frame the encoder takes is handed to the transmit facility whole (R181). -/
theorem emit_eq {payload : Bytes} (h : payload.length ≤ Config.maxPayload) (cmd : Byte) (s : State) :
    emit cmd payload s = (decide ((drawTx s.draws).1 = .ok), transmit [wireFrame s.cfg cmd payload] s) := by
  have hn : ¬ Config.maxPayload < payload.length := by omega
  unfold emit
  rw [if_neg hn]
  rcases hd : drawTx s.draws with ⟨o, d⟩
  cases o <;> simp [transmit, transmitted, hd, pushTx, setDraws, buildFrame_eq]

/-- A response handed to the transmit facility (R122). -/
theorem respond_eq (kind : DfuCmd) (st : Status) (s : State) :
    respond kind st s = transmit [responseFrame s.cfg kind st] s := by
  unfold respond responseFrame
  rw [emit_eq (by simp)]

/-- A Cancel request handed to the transmit facility (R215). -/
theorem emitCancel_eq (s : State) : emitCancel s = transmit [cancelFrame s.cfg] s := by
  unfold emitCancel cancelFrame
  rw [emit_eq (by simp)]

theorem transmitted_append (fs gs : List Bytes) (d : Draws) :
    transmitted (fs ++ gs) d = ((transmitted fs d).1 ++ (transmitted gs (transmitted fs d).2).1,
      (transmitted gs (transmitted fs d).2).2) := by
  induction fs generalizing d with
  | nil => simp [transmitted]
  | cons f fs ih =>
    simp only [List.cons_append, transmitted, ih]
    split <;> simp

/-- Frames handed over one after another are handed over in that order. -/
theorem transmit_transmit (fs gs : List Bytes) (s : State) : transmit gs (transmit fs s) = transmit (fs ++ gs) s := by
  simp [transmit, transmitted_append]

/-- Every frame transmitted is one of those handed over. -/
theorem transmitted_sublist (fs : List Bytes) (d : Draws) : (transmitted fs d).1.Sublist fs := by
  induction fs generalizing d with
  | nil => simp [transmitted]
  | cons f fs ih =>
    simp only [transmitted]
    split
    · exact (ih _).cons_cons _
    · exact (ih _).cons _

/-! ### Draws and the flash interface -/

@[simp] theorem drawJunk_length (n : Nat) (d : Draws) : (drawJunk n d).1.length = n := by
  induction n generalizing d with
  | zero => rfl
  | succ n ih => simp [drawJunk, ih]

/-- A flash write covers at least its data (R77). -/
theorem le_paddedLength (p : Params) (n : Nat) (hw : 1 ≤ p.flashWordBytes) : n ≤ paddedLength p n := by
  unfold paddedLength ceilDiv
  have := Nat.div_add_mod (n + p.flashWordBytes - 1) p.flashWordBytes
  have := Nat.mod_lt (n + p.flashWordBytes - 1) (show 0 < p.flashWordBytes by omega)
  rw [Nat.mul_comm]
  omega

@[simp] theorem paddedData_length (p : Params) (data : Bytes) (hw : 1 ≤ p.flashWordBytes) :
    (paddedData p data).length = paddedLength p data.length := by
  have := le_paddedLength p data.length hw
  simp only [paddedData, List.length_append, List.length_replicate]
  omega

/-- A write the flash layer does not admit changes nothing and takes no draw (R77). -/
theorem flashWrite_rejected {addr : Nat} {data : Bytes} {s : State} (h : flashAdmits s.cfg addr data.length = false) :
    flashWrite addr data s = (false, s) := by simp [flashWrite, h]

/-- An admitted write whose draw is `ok` leaves the padded data (R77). -/
theorem flashWrite_ok {addr : Nat} {data : Bytes} {s : State} (h : flashAdmits s.cfg addr data.length = true)
    (ho : (drawFlash s.draws).1 = .ok) :
    flashWrite addr data s = (true,
      setFlash (memWrite .flash s.flash (addr - s.cfg.flashBase.toNat) (paddedData s.cfg data))
        (setDraws (drawFlash s.draws).2 s)) := by
  rcases hd : drawFlash s.draws with ⟨o, d⟩
  rw [hd] at ho
  cases ho
  simp [flashWrite, h, hd]

/-- An admitted write whose draw is `fail` leaves junk in the whole padded range (R77). -/
theorem flashWrite_fail {addr : Nat} {data : Bytes} {s : State} (h : flashAdmits s.cfg addr data.length = true)
    (ho : (drawFlash s.draws).1 = .fail) :
    flashWrite addr data s = (false,
      setFlash (memWrite .flash s.flash (addr - s.cfg.flashBase.toNat)
        (drawJunk (paddedLength s.cfg data.length) (drawFlash s.draws).2).1)
        (setDraws (drawJunk (paddedLength s.cfg data.length) (drawFlash s.draws).2).2 s)) := by
  rcases hd : drawFlash s.draws with ⟨o, d⟩
  rw [hd] at ho
  cases ho
  simp [flashWrite, h, hd]

end Sys2Proof.Machine
end

