-- ==== Sys2Proof/Laws/Step.lean ====
section
/-! SUPPORT. Laws/Step.lean: what a step can be, that exec stops while the block is halted, the memories after reset, and
how an opcode-table word is run. -/

namespace Sys2Proof.Machine

/-- No instruction has a step while the block is halted (10_state.md R45). -/
theorem exec_halted (i : Instr) (s : State) (h : s.blk.halted = true) : exec i s = .fault .halted := by
  cases i <;> simp [exec, whenRunning, h, execRbInit, execRbIsEmpty, execRbDataLen, execRbQueueBytes,
    execRbDequeueByte, execRbSetWriteIndex, execRbIncrementReadIndex, execRbGetMaxContiguousSlice, execRbArrayWrite,
    execRbArrayRead, execFrPoll, execFrSend, execDfuStateCheck, execReservedD, execReservedEF, execInitReq,
    execStatusReq, execPageCreateReq, execWriteDataEvt, execPageStoreReq, execStateCheckResp, execCancelResp, execFwd,
    execIgnore]

/-- What answers a next state ran in a running block. -/
theorem exec_next_running {i : Instr} {s t : State} (h : exec i s = .next t) : Running s := by
  by_cases hh : s.blk.halted = true
  · rw [exec_halted i s hh] at h
    cases h
  · simpa using hh

/-- The three ways a step answers a next state: nothing to do, an external reset, an instruction. -/
theorem step_next_cases {s t : State} (h : step s = .next t) :
    (s.inbox = [] ∧ t = s) ∨
    (∃ rest, s.inbox = .reset :: rest ∧ t = externalReset { s with inbox := rest }) ∨
    (∃ r rest i, s.inbox = .request r :: rest ∧ decodePort r.word r.data = .ok i ∧ owns r.agent i = true ∧
      exec i { s with inbox := rest } = .next t) := by
  unfold step fetch at h
  rcases hb : s.inbox with _ | ⟨e, rest⟩
  · simp only [hb] at h
    exact .inl ⟨rfl, (Host.Outcome.next.inj h).symm⟩
  · cases e with
    | reset =>
      simp only [hb] at h
      exact .inr (.inl ⟨rest, rfl, (Host.Outcome.next.inj h).symm⟩)
    | request r =>
      refine .inr (.inr ⟨r, rest, ?_⟩)
      simp only [hb, fetchRequest] at h
      cases hh : s.blk.halted with
      | true => simp [hh] at h
      | false =>
        rcases hd : decodePort r.word r.data with e | i
        · simp [hh, hd] at h
        · cases ho : owns r.agent i with
          | false => simp [hh, hd, ho] at h
          | true => exact ⟨i, rfl, rfl, ho, by simpa [hh, hd, ho] using h⟩

/-- The memories after reset are canonical. -/
theorem reset_memory_wf (sp : Space) : Memory.wf sp (State.reset.memory sp) := by
  cases sp <;> exact nil_wf _

/-- The configuration after reset is valid. -/
theorem reset_cfg_valid : State.reset.cfg.Valid := Config.params_valid

/-- A request placed first in a running block by its operation's owner is what the next step runs. -/
theorem step_placeRequest (s : State) (w : BitVec 20) (h : Running s) :
    step (placeRequest (requestOfWord w) s) = exec (selectPort w []) s := by
  have ho : owns (issuer (selectPort w [])) (selectPort w []) = true := by
    unfold owns issuer
    cases owner (selectPort w []) <;> simp
  simp [step, fetch, fetchRequest, placeRequest, requestOfWord, decodePort, h, ho]

/-- A request word of the opcode table is what the next step runs. -/
theorem step_withFetchWord_port (s : State) (nbits w : Nat) (h : Running s) (hn : 16 < nbits) (hw : w < 2 ^ 20) :
    step (s.withFetchWord nbits w) = exec (selectPort (BitVec.ofNat 20 w) []) s := by
  unfold State.withFetchWord placeTableWord
  rw [if_pos ⟨hn, hw⟩, step_placeRequest _ _ h]

/-- The decoder reads the same instruction from that word. -/
theorem decodeTableWord_port (nbits w : Nat) (hn : 16 < nbits) (hw : w < 2 ^ 20) :
    decodeTableWord nbits w = some (selectPort (BitVec.ofNat 20 w) []) := by
  unfold decodeTableWord
  rw [if_pos ⟨hn, hw⟩]
  simp [decode, decodePort]

/-- A frame's instruction runs the handler its dispatch row names (41_frame_codec.md R180). -/
theorem exec_frameInstr (k : FrameClass) (cmd : Byte) (payload : Bytes) {s : State} (h : Running s) :
    exec (frameInstr k cmd payload) s = .next (runHandler k cmd payload s) := by
  cases k <;> exact whenRunning_running h _

/-- The two halves of a 16-bit value make it up again. -/
theorem ofLe16_halves (v : BitVec 16) : ofLe16 (v.extractLsb' 0 8) (v.extractLsb' 8 8) = v := by
  unfold ofLe16
  ext i hi
  simp only [BitVec.getElem_append, BitVec.getElem_extractLsb']
  split
  · simp [BitVec.getLsbD_eq_getElem (show i < 16 by omega)]
  · rw [show 8 + (i - 8) = i by omega, BitVec.getLsbD_eq_getElem (show i < 16 by omega)]

/-- The payload of a frame placed but for its last byte. -/
theorem rxPayload_receiverAtLastByte (p : Params) (cmd : Byte) (payload : Bytes) (s : State)
    (hp : payload.length ≤ Config.maxPayload) (hs : s.fr = receiverAtLastByte p cmd payload) :
    rxPayload s = payload := by
  have hp' : payload.length ≤ 127 := hp
  have hl : s.fr.len.toNat = payload.length := by
    rw [hs]
    simp only [receiverAtLastByte, BitVec.toNat_ofNat]
    omega
  unfold rxPayload
  rw [hl]
  refine memBytes_eq _ _ _ _ _ (fun k hk => ?_)
  rw [hs]
  simp only [receiverAtLastByte, Nat.zero_add]
  rw [memRead_memWrite_inside _ _ _ _ _ (Nat.zero_le k) (by omega)]
  simp [hk]

/-- A frame placed but for its last byte is what the next step completes, dispatches and runs. -/
theorem step_placeFrame (cmd : Byte) (payload : Bytes) (s : State) (h : Running s)
    (hp : payload.length ≤ Config.maxPayload) :
    ∃ t, step (placeFrame cmd payload s) = exec (selectFrame s.cfg cmd payload) t ∧ Running t ∧
      t.cfg = s.cfg ∧ t.dfu = s.dfu ∧ t.flash = s.flash ∧ t.logs = s.logs ∧ t.draws = s.draws := by
  let hi := (s.cfg.crc16 (crcInput cmd payload)).extractLsb' 8 8
  let u : State := { s with rb := ringWithByte hi, fr := receiverAtLastByte s.cfg cmd payload }
  let v : State := ret .nothing (advanceRd u)
  refine ⟨setFr { v.fr with pos := 0 } v, ?_, h, rfl, rfl, rfl, rfl, rfl⟩
  have hpl : rxPayload v = payload := rxPayload_receiverAtLastByte s.cfg cmd payload v hp rfl
  have hp' : payload.length ≤ 127 := hp
  have hstate : rxState v = some .waitCrcHigh := by
    have h1 : v.fr.pos.toNat = 5 + payload.length := by
      show (BitVec.ofNat 8 (5 + payload.length)).toNat = _
      rw [BitVec.toNat_ofNat]
      omega
    have h2 : v.fr.len.toNat = payload.length := by
      show (BitVec.ofNat 8 payload.length).toNat = _
      rw [BitVec.toNat_ofNat]
      omega
    unfold rxState rxStateAt
    rw [h1, h2]
    repeat rw [if_neg (by omega)]
    simp
  have hcrc : crcMatches hi v = true := by
    unfold crcMatches
    rw [hpl]
    exact decide_eq_true (ofLe16_halves _)
  have hstep : step (placeFrame cmd payload s) = pollByte hi u := by
    have hsel : selectPort pollRequest.word pollRequest.data = .frPoll := by decide
    have hown : owns pollRequest.agent .frPoll = true := by decide
    have hdec : decodePort pollRequest.word pollRequest.data = .ok .frPoll := by
      rw [decodePort, hsel]
      rfl
    simp only [step, fetch, placeFrame, placeRequest, fetchRequest, h, hdec, hown, exec, execFrPoll, if_true,
      Bool.false_eq_true, if_false]
    rfl
  have hrun : Running (setFr { v.fr with pos := 0 } v) := h
  rw [hstep, selectFrame, exec_frameInstr _ _ _ hrun]
  show (match rxStep hi v with | some r => _ | none => _) = _
  simp only [rxStep, hstate, rxStepAt, hcrc, if_true, finishPoll, dispatchFrame, hpl]
  rfl

end Sys2Proof.Machine
end

