-- ==== Sys2Proof/Laws/FrameCodec.lean ====
section
/-! SUPPORT. Laws/FrameCodec.lean: the receive state at each position, what FR_POLL does with the byte it reads, and the
row each command byte selects. -/

namespace Sys2Proof.Machine

/-! ### The receive states (10_state.md R37) -/

theorem rxStateAt_payload (pos len : Nat) (h : 4 ≤ pos) (hp : pos < 4 + len) :
    rxStateAt pos len = some .waitPayload := by
  simp [rxStateAt, show pos ≠ 0 by omega, show pos ≠ 1 by omega, show pos ≠ 2 by omega, show pos ≠ 3 by omega, hp]

theorem rxStateAt_crcLow (len : Nat) : rxStateAt (4 + len) len = some .waitCrcLow := by
  simp [rxStateAt, show 4 + len ≠ 1 by omega, show 4 + len ≠ 2 by omega,
    show 4 + len ≠ 3 by omega]

theorem rxStateAt_crcHigh (len : Nat) : rxStateAt (5 + len) len = some .waitCrcHigh := by
  simp [rxStateAt, show 5 + len ≠ 1 by omega, show 5 + len ≠ 2 by omega,
    show 5 + len ≠ 3 by omega]

/-- Up to the frame's last byte there is a receive state. -/
theorem rxStateAt_some (pos len : Nat) (h : pos ≤ 5 + len) : ∃ st, rxStateAt pos len = some st := by
  unfold rxStateAt
  repeat' split
  all_goals first
    | exact ⟨_, rfl⟩
    | omega

/-! ### FR_POLL (41_frame_codec.md R170) -/

/-- The state in which FR_POLL takes the receive step. -/
abbrev pollBase (s : State) : State := ret .nothing (advanceRd s)

/-- FR_POLL with a byte to read gives it to the receive step. -/
theorem exec_frPoll_read {s : State} {b : Byte} (h : PollReads s b) : exec .frPoll s = pollByte b s := by
  obtain ⟨⟨hr, hi⟩, hn, hc⟩ := h
  simp only [exec, execFrPoll, poll]
  rw [show s.blk.halted = false from hr, hi, hc]
  simp [isEmpty, hn]

/-- FR_POLL in a receive state: the receive step, and the dispatch of the frame it completes. -/
theorem exec_frPoll_state {s : State} {b : Byte} {st : RxState} (h : PollReads s b)
    (hst : rxStateAt s.fr.pos.toNat s.fr.len.toNat = some st) :
    exec .frPoll s = .next (finishPoll (rxStepAt st b (pollBase s))) := by
  have : rxState (pollBase s) = some st := hst
  rw [exec_frPoll_read h, pollByte, rxStep, this]

/-- The receive step changes the receiver alone. -/
theorem rxStepAt_frame (st : RxState) (b : Byte) (s : State) :
    (rxStepAt st b s).1 = { s with fr := (rxStepAt st b s).1.fr } := by
  cases st <;> simp only [rxStepAt] <;> (try unfold rxMismatch) <;> (repeat' split) <;> rfl

/-- `Mismatch(b)` (R178). -/
theorem rxMismatch_eq (b : Byte) (s : State) :
    rxMismatch b s = setFr { s.fr with
      pos := if s.cfg.resyncReexamine = true ∧ b = Config.preamble1 then 1 else 0 } s := by
  unfold rxMismatch
  split <;> rfl

/-- The received CRC as a number (30_encoding.md R111). -/
theorem ofLe16_toNat (lo hi : Byte) : (ofLe16 lo hi).toNat = lo.toNat + 256 * hi.toNat := by
  have hl := lo.isLt
  rw [ofLe16, BitVec.toNat_append, Nat.shiftLeft_eq, Nat.mul_comm, ← Nat.two_pow_add_eq_or_of_lt hl]
  omega

/-- Where RXP holds a payload of the declared length, that is the payload of the frame. -/
theorem rxPayload_eq {s : State} {payload : Bytes} (hl : payload.length = s.fr.len.toNat) (h : Holds s .rxp 0 payload) :
    rxPayload s = payload := by
  unfold rxPayload
  rw [← hl]
  exact memBytes_eq _ _ _ _ _ h

/-- The CRC comparison as numbers (R177, R179). -/
theorem crcMatches_iff (hi : Byte) (s : State) :
    crcMatches hi s = true ↔
      s.fr.crcLo.toNat + 256 * hi.toNat = (s.cfg.crc16 (s.fr.len :: s.fr.cmd :: rxPayload s)).toNat := by
  rw [crcMatches, decide_eq_true_iff, ← BitVec.toNat_inj, ofLe16_toNat]

/-- A dispatched frame runs the instruction its command byte selects (R180). -/
theorem exec_selectFrame (cmd : Byte) (payload : Bytes) {s : State} (h : Running s) :
    exec (selectFrame s.cfg cmd payload) s = .next (dispatchFrame cmd payload s) := exec_frameInstr _ _ _ h

/-! ### The dispatch rows (R180) -/

/-- A forwarded command byte is none of the thirteen codes (R115). -/
theorem classify_forwarded {p : Params} (h : p.Valid) {c : Byte} (hc : c ∈ p.forwardSet) : classify p c = .fwd := by
  have hn : ∀ d ∈ p.cmd.all, ¬ c = d := fun d hd e => h.cmd_not_forwarded d hd (e ▸ hc)
  simp only [CmdCodes.all, List.mem_cons, List.not_mem_nil, or_false, forall_eq_or_imp, forall_eq] at hn
  simp only [classify, CmdCodes.code, hn, if_false, hc, if_true]

/-- Every byte that is neither a receive code nor forwarded is ignored. -/
theorem classify_other {p : Params} {c : Byte} (hc : c ∉ receiveCodes p) (hd : c ∉ p.forwardSet) :
    classify p c = .ignore := by
  simp only [receiveCodes, List.mem_cons, List.not_mem_nil, or_false, not_or] at hc
  simp only [classify, CmdCodes.code, hc, if_false, hd]

/-- The seven receive codes select their handlers. -/
theorem classify_code {p : Params} (h : p.Valid) :
    classify p p.cmd.initReq = .initReq ∧ classify p p.cmd.statusReq = .statusReq ∧
    classify p p.cmd.pageCreateReq = .pageCreateReq ∧ classify p p.cmd.writeDataEvt = .writeDataEvt ∧
    classify p p.cmd.pageStoreReq = .pageStoreReq ∧ classify p p.cmd.stateCheckResp = .stateCheckResp ∧
    classify p p.cmd.cancelResp = .cancelResp := by
  have hn := h.cmd_nodup.imp (fun hne => Ne.symm hne)
  simp only [CmdCodes.all, List.pairwise_cons, List.mem_cons, List.not_mem_nil, or_false, forall_eq_or_imp, forall_eq]
    at hn
  simp only [classify, CmdCodes.code, hn, if_true, if_false, and_self]

end Sys2Proof.Machine
end

