-- ==== Sys2Proof/Laws/Dfu.lean ====
section
/-! SUPPORT. Laws/Dfu.lean: what a handler leaves unchanged, what FR_POLL can do, and the cells a padded flash write
leaves. -/

namespace Sys2Proof.Machine

/-! ### Little-endian fields (00_scope.md R13) -/

@[simp] theorem le32_length (v : BitVec 32) : (le32 v).length = 4 := rfl

/-- Reading a 32-bit field gives the value laid there. -/
theorem rdle32_le32 (v : BitVec 32) (rest : Bytes) : rdle32 (le32 v ++ rest) 0 = v := by
  show v.extractLsb' 24 8 ++ v.extractLsb' 16 8 ++ v.extractLsb' 8 8 ++ v.extractLsb' 0 8 = v
  apply BitVec.eq_of_getLsbD_eq
  intro i hi
  simp only [BitVec.getLsbD_append, BitVec.getLsbD_extractLsb']
  by_cases h1 : i < 8
  · simp [h1]
  · by_cases h2 : i - 8 < 8
    · simp [h1, h2, show 8 + (i - 8) = i by omega]
    · by_cases h3 : i - 8 - 8 < 8
      · simp [h1, h2, h3, show 16 + (i - 8 - 8) = i by omega]
      · simp [h1, h2, h3, show i - 8 - 8 - 8 < 8 by omega, show 24 + (i - 8 - 8 - 8) = i by omega]

/-! ### Flash writes (20_memory.md R77) -/

/-- The cells of an accepted write: the data, the padding, and everything else as it was. -/
theorem memRead_paddedData (p : Params) (hw : 1 ≤ p.flashWordBytes) (m : Memory) (off : Nat) (data : Bytes) (i : Nat) :
    memRead .flash (memWrite .flash m off (paddedData p data)) i =
      if h : off ≤ i ∧ i < off + data.length then some (data[i - off]'(by omega))
      else if off ≤ i ∧ i < off + paddedLength p data.length then some p.erasedValue
      else memRead .flash m i := by
  have hl := paddedData_length p data hw
  have hle := le_paddedLength p data.length hw
  split
  · next h =>
    rw [memRead_memWrite_inside _ _ _ _ _ h.1 (by omega), paddedData, List.getElem?_append_left (by omega),
      List.getElem?_eq_getElem (by omega)]
  · split
    · next h1 h2 =>
      rw [memRead_memWrite_inside _ _ _ _ _ h2.1 (by omega), paddedData, List.getElem?_append_right (by omega),
        List.getElem?_replicate_of_lt (by omega)]
    · next h1 h2 => exact memRead_memWrite_outside _ _ _ _ _ (by omega)

/-! ### What a handler can do -/

/-- What every handler leaves unchanged, how `tx_log` can grow (10_state.md R47), and the one way to halt (R45, R49). -/
structure HandlerFrame (s t : State) : Prop where
  cfg : t.cfg = s.cfg
  rb : t.rb = s.rb
  fr : t.fr = s.fr
  faults : t.blk.faults = s.blk.faults
  inbox : t.inbox = s.inbox
  result : t.result = s.result
  tx : ∃ frames, t.logs.tx = s.logs.tx ++ frames ∧
    ∀ f ∈ frames, ∃ cmd payload, payload.length ≤ Config.maxPayload ∧ f = wireFrame s.cfg cmd payload
  halt : (t.blk.halted = s.blk.halted ∧ t.logs.commit = s.logs.commit) ∨
    (t.blk.halted = true ∧ t.dfu = Session.initial ∧ ∃ words, t.logs.commit = s.logs.commit ++ [words])

/-- A state that differs in the session, FLASH, `fwd_log` and the draws alone. -/
theorem HandlerFrame.quiet {s t : State} (h1 : t.cfg = s.cfg) (h2 : t.rb = s.rb) (h3 : t.fr = s.fr) (h4 : t.blk = s.blk)
    (h5 : t.inbox = s.inbox) (h6 : t.result = s.result) (h7 : t.logs.tx = s.logs.tx)
    (h8 : t.logs.commit = s.logs.commit) : HandlerFrame s t :=
  ⟨h1, h2, h3, by rw [h4], h5, h6, ⟨[], by simp [h7]⟩, .inl ⟨by rw [h4], h8⟩⟩

theorem HandlerFrame.refl (s : State) : HandlerFrame s s := .quiet rfl rfl rfl rfl rfl rfl rfl rfl

/-- Two effects in turn, the first of which does not halt. -/
theorem HandlerFrame.trans {s t u : State} (h : HandlerFrame s t) (g : HandlerFrame t u)
    (hc : t.blk.halted = s.blk.halted ∧ t.logs.commit = s.logs.commit) : HandlerFrame s u := by
  refine ⟨g.cfg.trans h.cfg, g.rb.trans h.rb, g.fr.trans h.fr, g.faults.trans h.faults, g.inbox.trans h.inbox,
    g.result.trans h.result, ?_, ?_⟩
  · obtain ⟨f1, e1, p1⟩ := h.tx
    obtain ⟨f2, e2, p2⟩ := g.tx
    refine ⟨f1 ++ f2, by rw [e2, e1, List.append_assoc], fun f hf => ?_⟩
    rcases List.mem_append.mp hf with hf | hf
    · exact p1 f hf
    · rw [← h.cfg]
      exact p2 f hf
  · rw [← hc.1, ← hc.2]
    exact g.halt

theorem transmit_frame (s : State) (cmd : Byte) (payload : Bytes) (h : payload.length ≤ Config.maxPayload) :
    HandlerFrame s (transmit [wireFrame s.cfg cmd payload] s) := by
  refine ⟨rfl, rfl, rfl, rfl, rfl, rfl, ⟨_, rfl, fun f hf => ?_⟩, .inl ⟨rfl, rfl⟩⟩
  have := (transmitted_sublist _ _).subset hf
  simp only [List.mem_singleton] at this
  exact ⟨cmd, payload, h, this⟩

theorem emit_frame (cmd : Byte) (payload : Bytes) (s : State) : HandlerFrame s (emit cmd payload s).2 := by
  by_cases h : Config.maxPayload < payload.length
  · rw [emit_oversize h]
    exact .refl s
  · rw [emit_eq (by omega)]
    exact transmit_frame _ _ _ (by omega)

/-- The encoder leaves the session, FLASH, `fwd_log`, `commit_log` and the halt bit alone (41_frame_codec.md R181). -/
theorem emit_unchanged (cmd : Byte) (payload : Bytes) (s : State) :
    (emit cmd payload s).2.dfu = s.dfu ∧ (emit cmd payload s).2.flash = s.flash ∧
    (emit cmd payload s).2.logs.fwd = s.logs.fwd ∧ (emit cmd payload s).2.logs.commit = s.logs.commit ∧
    (emit cmd payload s).2.blk = s.blk := by
  unfold emit
  (repeat' split) <;> exact ⟨rfl, rfl, rfl, rfl, rfl⟩

theorem respond_frame (k : DfuCmd) (st : Status) (s : State) : HandlerFrame s (respond k st s) := emit_frame _ _ _

theorem respond_halt (k : DfuCmd) (st : Status) (s : State) :
    (respond k st s).blk.halted = s.blk.halted ∧ (respond k st s).logs.commit = s.logs.commit := by
  rw [respond_eq]
  exact ⟨rfl, rfl⟩

theorem setDfu_frame (d : Session) (s : State) : HandlerFrame s (setDfu d s) := .quiet rfl rfl rfl rfl rfl rfl rfl rfl

/-- A flash write changes FLASH and the draws alone. -/
theorem flashWrite_eq (addr : Nat) (data : Bytes) (s : State) :
    (flashWrite addr data s).2 =
      setFlash (flashWrite addr data s).2.flash (setDraws (flashWrite addr data s).2.draws s) := by
  unfold flashWrite
  (repeat' split) <;> rfl

theorem initReq_frame (payload : Bytes) (s : State) : HandlerFrame s (initReq payload s) := by
  unfold initReq handleInit acceptInit
  (repeat' split)
  · exact (setDfu_frame _ s).trans (respond_frame _ _ _) ⟨rfl, rfl⟩
  · exact (setDfu_frame _ s).trans (respond_frame _ _ _) ⟨rfl, rfl⟩
  · exact (setDfu_frame _ s).trans (respond_frame _ _ _) ⟨rfl, rfl⟩
  · have h : HandlerFrame s (openSession payload (eraseRegion (resetSession s))) :=
      .quiet rfl rfl rfl rfl rfl rfl rfl rfl
    exact (h.trans (respond_frame .initResp .success _) ⟨rfl, rfl⟩).trans (setDfu_frame _ _) (respond_halt _ _ _)
  · exact .refl s

theorem pageCreateReq_frame (payload : Bytes) (s : State) : HandlerFrame s (pageCreateReq payload s) := by
  unfold pageCreateReq
  (repeat' split)
  · exact .refl s
  · exact (respond_frame _ _ s).trans (emit_frame _ _ _) (respond_halt _ _ _)
  · exact respond_frame _ _ _
  · exact (setDfu_frame _ s).trans (respond_frame _ _ _) ⟨rfl, rfl⟩

theorem writeDataEvt_frame (payload : Bytes) (s : State) : HandlerFrame s (writeDataEvt payload s) := by
  unfold writeDataEvt
  (repeat' split)
  · exact .refl s
  · exact emit_frame _ _ _
  · exact setDfu_frame _ _
  · exact .refl s

theorem afterPageWrite_frame (s : State) : HandlerFrame s (afterPageWrite s) := by
  unfold afterPageWrite verifyImage
  (repeat' split)
  · refine (respond_frame .pageStoreResp .firmwareSuccessfullyUpdated s).trans ?_ (respond_halt _ _ _)
    exact ⟨rfl, rfl, rfl, rfl, rfl, rfl, ⟨[], by simp [commitImage, commitAndReboot, resetSession]⟩, .inr ⟨rfl, rfl, _, rfl⟩⟩
  · exact (respond_frame _ _ s).trans (setDfu_frame _ _) (respond_halt _ _ _)
  · exact respond_frame _ _ _

theorem storePage_frame (s : State) : HandlerFrame s (storePage s) := by
  unfold storePage
  split
  · next t e =>
    have h : t = _ := (congrArg Prod.snd e).symm.trans (flashWrite_eq _ _ _)
    have q : HandlerFrame s (advancePage t) := by
      rw [h]
      exact .quiet rfl rfl rfl rfl rfl rfl rfl rfl
    exact q.trans (afterPageWrite_frame _) (by rw [h]; exact ⟨rfl, rfl⟩)
  · next t e =>
    have h : t = _ := (congrArg Prod.snd e).symm.trans (flashWrite_eq _ _ _)
    have q : HandlerFrame s t := by
      rw [h]
      exact .quiet rfl rfl rfl rfl rfl rfl rfl rfl
    exact q.trans (respond_frame _ _ _) (by rw [h]; exact ⟨rfl, rfl⟩)

theorem pageStoreReq_frame (s : State) : HandlerFrame s (pageStoreReq s) := by
  unfold pageStoreReq
  (repeat' split)
  · exact (respond_frame _ _ s).trans (emit_frame _ _ _) (respond_halt _ _ _)
  · exact respond_frame _ _ _
  · exact respond_frame _ _ _
  · exact storePage_frame s

theorem stateCheckResp_frame (payload : Bytes) (s : State) : HandlerFrame s (stateCheckResp payload s) := by
  unfold stateCheckResp
  (repeat' split)
  · exact .refl s
  · exact .refl s
  · exact emit_frame _ _ _

/-- Every handler, by its dispatch row (41_frame_codec.md R180). -/
theorem runHandler_frame (k : FrameClass) (cmd : Byte) (payload : Bytes) (s : State) :
    HandlerFrame s (runHandler k cmd payload s) := by
  cases k
  · exact initReq_frame payload s
  · exact emit_frame _ _ _
  · exact pageCreateReq_frame payload s
  · exact writeDataEvt_frame payload s
  · exact pageStoreReq_frame s
  · exact stateCheckResp_frame payload s
  · exact setDfu_frame _ _
  · exact .quiet rfl rfl rfl rfl rfl rfl rfl rfl
  · exact .refl s

/-- A dispatched frame that answers a next state ran its row's handler in a running block. -/
theorem exec_frame_next {i : Instr} {s t : State} (hi : isFrame i = true) (h : exec i s = .next t) :
    ∃ k cmd payload, i = frameInstr k cmd payload ∧ Running s ∧ t = runHandler k cmd payload s := by
  cases i <;> simp only [isFrame, Bool.false_eq_true] at hi
  case initReq pl => exact ⟨.initReq, 0, pl, rfl, whenRunning_next h⟩
  case statusReq pl => exact ⟨.statusReq, 0, pl, rfl, whenRunning_next h⟩
  case pageCreateReq pl => exact ⟨.pageCreateReq, 0, pl, rfl, whenRunning_next h⟩
  case writeDataEvt pl => exact ⟨.writeDataEvt, 0, pl, rfl, whenRunning_next h⟩
  case pageStoreReq pl => exact ⟨.pageStoreReq, 0, pl, rfl, whenRunning_next h⟩
  case stateCheckResp pl => exact ⟨.stateCheckResp, 0, pl, rfl, whenRunning_next h⟩
  case cancelResp pl => exact ⟨.cancelResp, 0, pl, rfl, whenRunning_next h⟩
  case fwd c pl => exact ⟨.fwd, c, pl, rfl, whenRunning_next h⟩
  case ignore c pl => exact ⟨.ignore, c, pl, rfl, whenRunning_next h⟩

/-- Everything FR_POLL can do (41_frame_codec.md R170): a fault bit, nothing, or one receive step with the dispatch of the
frame it completes. -/
theorem exec_frPoll_cases {s t : State} (h : exec .frPoll s = .next t) :
    Running s ∧
    ((s.rb.init = false ∧ t = ret .nothing (raiseFault .rbNotInitialised s)) ∨ t = ret .nothing s ∨
      t = ret .nothing (raiseFault .rbUnwrittenRead s) ∨
      ∃ b st, s.rb.init = true ∧ rxStateAt s.fr.pos.toNat s.fr.len.toNat = some st ∧
        (((rxStepAt st b (pollBase s)).2 = none ∧ t = (rxStepAt st b (pollBase s)).1) ∨
          ∃ cmd payload, (rxStepAt st b (pollBase s)).2 = some (cmd, payload) ∧
            t = dispatchFrame cmd payload (rxStepAt st b (pollBase s)).1)) := by
  have hr : s.blk.halted = false := exec_next_running h
  refine ⟨hr, ?_⟩
  simp only [exec, execFrPoll, hr, Bool.false_eq_true, if_false] at h
  unfold poll at h
  split at h
  · next hi => exact .inl ⟨hi, (Host.Outcome.next.inj h).symm⟩
  · next hi =>
    split at h
    · exact .inr (.inl (Host.Outcome.next.inj h).symm)
    · split at h
      · exact .inr (.inr (.inl (Host.Outcome.next.inj h).symm))
      · next b hb =>
        unfold pollByte rxStep at h
        refine .inr (.inr (.inr ?_))
        rcases hst : rxState (pollBase s) with _ | st
        · rw [hst] at h
          cases h
        · rw [hst] at h
          refine ⟨b, st, by simpa using hi, hst, ?_⟩
          simp only [Host.Outcome.next.injEq, finishPoll] at h
          rcases hx : (rxStepAt st b (pollBase s)).2 with _ | ⟨cmd, pl⟩
          · rw [hx] at h
            exact .inl ⟨rfl, h.symm⟩
          · rw [hx] at h
            exact .inr ⟨cmd, pl, rfl, h.symm⟩

end Sys2Proof.Machine
end

