-- ==== Sys2Proof/Laws/PerInstr.lean ====
section
/-! SUPPORT. Laws/PerInstr.lean: the shape of every instruction's encoding: the selector of its request word (30_encoding.md
R101), or a frame of the preamble and at most 133 bytes (R110, 00_scope.md R11). -/

namespace Sys2Proof.Laws.EncodeShape

/-- The selector R101 gives an operation; none for the instructions that are frames. -/
def selector : Instr → Option Nat
  | .rbInit _ => some 0
  | .rbIsEmpty => some 1
  | .rbDataLen => some 2
  | .rbQueueBytes _ => some 3
  | .rbDequeueByte => some 4
  | .rbSetWriteIndex _ => some 5
  | .rbIncrementReadIndex _ => some 6
  | .rbGetMaxContiguousSlice => some 7
  | .rbArrayWrite _ _ => some 8
  | .rbArrayRead _ => some 9
  | .frPoll => some 10
  | .frSend _ _ => some 11
  | .dfuStateCheck => some 12
  | .reservedD => some 13
  | .reservedEF odd => some (if odd then 15 else 14)
  | .initReq _ => none
  | .statusReq _ => none
  | .pageCreateReq _ => none
  | .writeDataEvt _ => none
  | .pageStoreReq _ => none
  | .stateCheckResp _ => none
  | .cancelResp _ => none
  | .fwd _ _ => none
  | .ignore _ _ => none

/-- A request word carries its operation's selector; a frame opens with the preamble and has 6 to 133 bytes. -/
def Statement (i : Instr) : Prop :=
  ∀ p : Params, wellFormed p i = true →
    match encode p i with
    | .port w _ => selector i = some (requestOp w)
    | .frame bs => selector i = none ∧ bs.take 2 = [0xAA#8, 0x55#8] ∧ 6 ≤ bs.length ∧ bs.length ≤ 133

/-- A built frame of a payload that fits has the shape. -/
theorem frame_shape (p : Params) (cmd : Byte) (pl : Bytes) (h : payloadFits pl = true) :
    (buildFrame p cmd pl).take 2 = [0xAA#8, 0x55#8] ∧ 6 ≤ (buildFrame p cmd pl).length ∧
      (buildFrame p cmd pl).length ≤ 133 := by
  have hl : pl.length ≤ 127 := of_decide_eq_true h
  refine ⟨rfl, ?_, ?_⟩ <;> rw [buildFrame_length] <;> omega

theorem rbInit (c : BitVec 16) : Statement (.rbInit c) := fun _ _ =>
  (congrArg some (requestOp_requestWord 0 c (by decide))).symm

theorem rbIsEmpty : Statement (.rbIsEmpty) := fun _ _ =>
  (congrArg some (requestOp_requestWord 1 0 (by decide))).symm

theorem rbDataLen : Statement (.rbDataLen) := fun _ _ =>
  (congrArg some (requestOp_requestWord 2 0 (by decide))).symm

theorem rbQueueBytes (data : Bytes) : Statement (.rbQueueBytes data) := fun _ _ =>
  (congrArg some (requestOp_requestWord 3 0 (by decide))).symm

theorem rbDequeueByte : Statement (.rbDequeueByte) := fun _ _ =>
  (congrArg some (requestOp_requestWord 4 0 (by decide))).symm

theorem rbSetWriteIndex (v : BitVec 16) : Statement (.rbSetWriteIndex v) := fun _ _ =>
  (congrArg some (requestOp_requestWord 5 v (by decide))).symm

theorem rbIncrementReadIndex (n : BitVec 16) : Statement (.rbIncrementReadIndex n) := fun _ _ =>
  (congrArg some (requestOp_requestWord 6 n (by decide))).symm

theorem rbGetMaxContiguousSlice : Statement (.rbGetMaxContiguousSlice) := fun _ _ =>
  (congrArg some (requestOp_requestWord 7 0 (by decide))).symm

theorem rbArrayWrite (a : BitVec 16) (data : Bytes) : Statement (.rbArrayWrite a data) := fun _ _ =>
  (congrArg some (requestOp_requestWord 8 a (by decide))).symm

theorem rbArrayRead (a : BitVec 16) : Statement (.rbArrayRead a) := fun _ _ =>
  (congrArg some (requestOp_requestWord 9 a (by decide))).symm

theorem frPoll : Statement (.frPoll) := fun _ _ =>
  (congrArg some (requestOp_requestWord 10 0 (by decide))).symm

theorem frSend (a : BitVec 16) (pl : Bytes) : Statement (.frSend a pl) := fun _ _ =>
  (congrArg some (requestOp_requestWord 11 a (by decide))).symm

theorem dfuStateCheck : Statement (.dfuStateCheck) := fun _ _ =>
  (congrArg some (requestOp_requestWord 12 0 (by decide))).symm

theorem reservedD : Statement (.reservedD) := fun _ _ =>
  (congrArg some (requestOp_requestWord 13 0 (by decide))).symm

theorem reservedEF (odd : Bool) : Statement (.reservedEF odd) := fun _ _ =>
  (congrArg some (requestOp_requestWord (if odd then 15 else 14) 0 (by cases odd <;> decide))).symm

theorem initReq (pl : Bytes) : Statement (.initReq pl) := fun p h => ⟨rfl, frame_shape p _ pl h⟩

theorem statusReq (pl : Bytes) : Statement (.statusReq pl) := fun p h => ⟨rfl, frame_shape p _ pl h⟩

theorem pageCreateReq (pl : Bytes) : Statement (.pageCreateReq pl) := fun p h => ⟨rfl, frame_shape p _ pl h⟩

theorem writeDataEvt (pl : Bytes) : Statement (.writeDataEvt pl) := fun p h => ⟨rfl, frame_shape p _ pl h⟩

theorem pageStoreReq (pl : Bytes) : Statement (.pageStoreReq pl) := fun p h => ⟨rfl, frame_shape p _ pl h⟩

theorem stateCheckResp (pl : Bytes) : Statement (.stateCheckResp pl) := fun p h => ⟨rfl, frame_shape p _ pl h⟩

theorem cancelResp (pl : Bytes) : Statement (.cancelResp pl) := fun p h => ⟨rfl, frame_shape p _ pl h⟩

theorem fwd (cmd : Byte) (pl : Bytes) : Statement (.fwd cmd pl) := fun p h =>
  ⟨rfl, frame_shape p cmd pl (Bool.and_eq_true_iff.mp h).1⟩

theorem ignore (cmd : Byte) (pl : Bytes) : Statement (.ignore cmd pl) := fun p h =>
  ⟨rfl, frame_shape p cmd pl (Bool.and_eq_true_iff.mp (Bool.and_eq_true_iff.mp h).1).1⟩

end Sys2Proof.Laws.EncodeShape
end

