-- ==== Sys2Proof/Laws/RingBuffer.lean ====
section
/-! SUPPORT. Laws/RingBuffer.lean: the wrapped write into the backing array, cell by cell. -/

namespace Sys2Proof.Machine

/-- The occupancy is below the capacity (10_state.md R35). -/
theorem occ_lt {s : State} (h : 0 < capacity s) : occ s < capacity s := modSub_lt _ _ _ h

/-- The limit is at most the capacity. -/
theorem limit_le (s : State) : limit s ≤ capacity s := by
  unfold limit
  split <;> omega

/-- Offsets below `c` from one place stay apart modulo `c`. -/
theorem add_mod_inj (a k l c : Nat) (hk : k < c) (hl : l < c) (h : (a + k) % c = (a + l) % c) : k = l := by
  have h2 : k % c = l % c := Nat.ModEq.add_left_cancel' a h
  rwa [Nat.mod_eq_of_lt hk, Nat.mod_eq_of_lt hl] at h2

/-- A cell at none of the written places is unchanged (40_ring_buffer.md R144). -/
theorem memRead_writeWrapped_outside (c x : Nat) (data : Bytes) (a : Nat) (m : Memory)
    (h : ∀ k < data.length, x ≠ (a + k) % c) :
    memRead .rba (writeWrapped c a data m) x = memRead .rba m x := by
  induction data generalizing a m with
  | nil => rfl
  | cons b bs ih =>
    unfold writeWrapped
    rw [ih, memRead_memWrite_one, if_neg (by simpa using h 0 (by simp))]
    intro k hk
    rw [Nat.add_assoc, Nat.add_comm 1 k]
    exact h (k + 1) (by simpa using hk)

/-- The written places hold the data, which does not reach round to its own start (R144). -/
theorem memRead_writeWrapped_inside (c : Nat) (data : Bytes) (a : Nat) (m : Memory) (hc : data.length ≤ c) (k : Nat)
    (h : k < data.length) : memRead .rba (writeWrapped c a data m) ((a + k) % c) = some data[k] := by
  induction data generalizing a m k with
  | nil => simp at h
  | cons b bs ih =>
    simp only [List.length_cons] at hc h
    unfold writeWrapped
    cases k with
    | zero =>
      rw [memRead_writeWrapped_outside, memRead_memWrite_one, if_pos (by simp)]
      · simp
      · intro k hk he
        rw [Nat.add_assoc] at he
        have := add_mod_inj a 0 (1 + k) c (by omega) (by omega) he
        omega
    | succ k =>
      rw [show a + (k + 1) = a + 1 + k by omega, ih (a + 1) _ (by omega) k (by omega)]
      simp

/-- The wrapped write keeps the canonical form and the array's bounds (20_memory.md R71). -/
theorem writeWrapped_ok (c : Nat) (hc : 0 < c) (data : Bytes) (a : Nat) (m : Memory) (h : Memory.wf .rba m)
    (hb : ∀ e ∈ m, e.1 < c) :
    Memory.wf .rba (writeWrapped c a data m) ∧ ∀ e ∈ writeWrapped c a data m, e.1 < c := by
  induction data generalizing a m with
  | nil => exact ⟨h, hb⟩
  | cons b bs ih =>
    unfold writeWrapped
    refine ih (a + 1) _ (memWrite_wf _ _ _ _ h) (fun e he => ?_)
    rcases mem_memWrite he with he | he
    · exact hb e he
    · have := Nat.mod_lt a hc
      simp only [List.length_singleton] at he
      omega

end Sys2Proof.Machine
end

