-- ==== Sys2Proof/Tests/Slice0.lean ====
section
/-! SUPPORT. Slice0.lean: the model's own tests. The values come from spec/95_test_vectors.md, under its example
configuration EX, and from the encodings of 30_encoding.md; the witnesses show that each statement's hypotheses can be
met. -/

namespace Sys2Proof.Tests

open Sys2Proof.Machine

/-! ### The example configuration EX (95 §0) -/

/-- The checksums of the frames used here (95 §0, FR-1, FR-2, FR-4). -/
def exCrc16 : List (Bytes × BitVec 16) :=
  [([0x00, 0xE2], 0xC063), ([0x00, 0xE7], 0x90C6), ([0x00, 0xE9], 0x7108), ([0x00, 0xEB], 0x514A),
   ([0x00, 0xEC], 0x21AD), ([0x01, 0xE1, 0x00], 0xD82F), ([0x01, 0xE1, 0x01], 0xC80E), ([0x01, 0xE1, 0x02], 0xF86D),
   ([0x01, 0xE1, 0x03], 0xE84C), ([0x01, 0xE5, 0x00], 0x14EB), ([0x01, 0xE5, 0x03], 0x2488)]
  ++ [([0x01, 0xE5, 0x04], 0x546F), ([0x01, 0xE8, 0x00], 0x62B7), ([0x01, 0xE8, 0x01], 0x7296),
   ([0x01, 0xE8, 0x04], 0x2233), ([0x01, 0xE8, 0x05], 0x3212), ([0x01, 0xE8, 0x06], 0x0271),
   ([0x04, 0xE4, 0x04, 0x00, 0x00, 0x00], 0x704A), ([0x01, 0xEA, 0x01], 0x14F4),
   ([0x04, 0xE6, 0x03, 0x01, 0x02, 0x03], 0x04D5), ([0x02, 0x10, 0x01, 0x02], 0x39B8), ([0x00, 0x20], 0x396D),
   ([0x01, 0x11, 0xFF], 0xD51E)]
  ++ [([0x0D, 0xE3, 0x00, 0x00, 0x04, 0x00, 0x00, 0x00, 0x00, 0x00, 0x00, 0x00, 0x00, 0x00, 0x00], 0x6122)]

/-- EX, with the digest of IMG8. -/
def ex : Params :=
  { rbCapacity := 256, fullMode := .reserveSlot, resyncReexamine := false
    cmd := ⟨0xE0, 0xE1, 0xE2, 0xE3, 0xE4, 0xE5, 0xE6, 0xE7, 0xE8, 0xE9, 0xEA, 0xEB, 0xEC⟩
    forwardSet := [0x10, 0x11], status := ⟨0, 1, 2, 3, 4, 5, 6⟩
    flashBase := 0x8000, flashRegionSize := 16, flashWordBytes := 4, erasedValue := 0xFF
    bypassToken := [0x41, 0x4E, 0x59], productTag := [0x4D, 0x54, 0x53], runningBuild := [0x37]
    crc16Known := exCrc16
    crc32Known := [([], 0x00000000), ([0x01, 0x02, 0x03], 0x55BC801D)]
    sha256Known :=
      [([1, 2, 3, 4, 5, 6, 7, 8],
        [0x66, 0x84, 0x0D, 0xDA, 0x15, 0x4E, 0x8A, 0x11, 0x3C, 0x31, 0xDD, 0x0A, 0xD3, 0x2F, 0x7F, 0x3A,
         0x36, 0x6A, 0x80, 0xE8, 0x13, 0x69, 0x79, 0xD8, 0xF5, 0xA1, 0x01, 0xD3, 0xD2, 0x9D, 0x6F, 0x72])] }

/-- The launch state with this capacity under EX; every draw it scripts is `ok`. -/
def start (c : BitVec 16) : State :=
  boot c ex [] { tx := [.ok, .ok], flash := [.ok], junk := [], count := 0 } []

/-- The state an instruction leaves, if it answers one. -/
def after (i : Instr) (s : State) : Option State :=
  match exec i s with
  | .next t => some t
  | .fault _ => none
  | .refused _ => none

/-- The state a step leaves, if it answers one. -/
def stepped (s : State) : Option State :=
  match step s with
  | .next t => some t
  | .fault _ => none
  | .refused _ => none

/-- The ring buffer with these cursors and these cells. -/
def ring (c wr rd : BitVec 16) (m : Memory) : State :=
  { start c with rb := { init := true, cap := c, wr := wr, rd := rd, rba := m } }

/-- Reset under EX: the ring buffer uninitialised. -/
def fresh : State := { State.reset with cfg := ex, draws := { tx := [.ok, .ok], flash := [.ok], junk := [], count := 0 } }

/-- A halted block. -/
def haltedState : State := { start 8 with blk := { halted := true, faults := FaultBits.none } }

/-- RBA holding these bytes from index 0 on. -/
def cells (bs : Bytes) : Memory := memWrite .rba [] 0 bs

/-- One unread byte and a receiver at this position with this declared length, RXP holding 01 02. -/
def polling (pos len b : Byte) : State :=
  { ring 8 1 0 [(0, b)] with
    fr := { pos := pos, len := len, cmd := 0x10, crcLo := 0xB8, rxp := [(0, 1), (1, 2)] } }

/-- A session for an image of this size with an open page of size `ps` that holds `page`, over this flash contents. -/
def session (fs : BitVec 32) (fo : BitVec 32) (ps : BitVec 16) (page : Bytes) (flash : Memory) : State :=
  { start 8 with
    flash := flash
    dfu := { inProgress := true, firmwareSize := fs, firmwareOffset := fo, expectedSha256 := ex.sha256 [1, 2, 3, 4, 5, 6, 7, 8]
             pageSize := ps, pageOffset := BitVec.ofNat 16 page.length, pbuf := memWrite .pbuf [] 0 page } }

/-- A session about to store the second page of IMG8. -/
def lastPage : State := session 8 4 4 [5, 6, 7, 8] (memWrite .flash [] 0 [1, 2, 3, 4])

/-- The same with a wrong last byte. -/
def badLastPage : State :=
  { session 8 4 4 [5, 6, 7, 9] (memWrite .flash [] 0 [1, 2, 3, 4]) with
    cfg := { ex with sha256Known := ex.sha256Known ++ [([1, 2, 3, 4, 5, 6, 7, 9], List.replicate 32 0x44)] } }

/-- A state whose next transmit draw is `fail`. -/
def txFails (s : State) : State := { s with draws := { s.draws with tx := [.fail] } }

/-- A state whose next flash draw is `fail`, the junk bytes all 0. -/
def flashFails (s : State) : State := { s with draws := { s.draws with flash := [.fail], junk := List.replicate 8 0 } }

/-- INIT8("MTS/8") (95 §0), after its size. -/
def init8Tail (app : Bytes) : Bytes :=
  (ex.sha256 [1, 2, 3, 4, 5, 6, 7, 8]).reverse ++ [BitVec.ofNat 8 app.length] ++ app

/-- The application data "MTS/8". -/
def mts8 : Bytes := [0x4D, 0x54, 0x53, 0x2F, 0x38]

theorem test_ex_valid : ex.Valid := by decide

/-! ### Well-formedness: one ill-formed term for each check -/

/-- A byte string of this length. -/
def zeros (n : Nat) : Bytes := List.replicate n 0

theorem zeros_length (n : Nat) : (zeros n).length = n := List.length_replicate

theorem test_wf_accepts :
    wellFormed ex (.rbQueueBytes [1]) = true ∧ wellFormed ex (.initReq (zeros 127)) = true ∧
    wellFormed ex (.fwd 0x10 []) = true ∧ wellFormed ex (.ignore 0x20 []) = true := by
  refine ⟨by decide, ?_, by decide, by decide⟩
  simp [wellFormed, payloadFits, zeros_length]

/-- A payload of 128 bytes. -/
theorem test_wf_payload_too_long :
    wellFormed ex (.initReq (zeros 128)) = false ∧ wellFormed ex (.statusReq (zeros 128)) = false ∧
    wellFormed ex (.fwd 0x10 (zeros 128)) = false ∧ wellFormed ex (.ignore 0x20 (zeros 128)) = false := by
  simp [wellFormed, payloadFits, zeros_length]

/-- Data of 65536 bytes. -/
theorem test_wf_data_too_long : wellFormed ex (.rbQueueBytes (zeros 65536)) = false := by
  simp [wellFormed, dataFits, zeros_length]

/-- A forwarded code outside `FORWARD_SET`. -/
theorem test_wf_forward_set : wellFormed ex (.fwd 0x20 []) = false := by decide

/-- An ignored code that is a receive code, or forwarded. -/
theorem test_wf_ignored :
    wellFormed ex (.ignore 0xE0 []) = false ∧ wellFormed ex (.ignore 0x10 []) = false := by decide

/-! ### Decoding: one word written out from the encoding for each constructor (R100, R101, R110) -/

theorem test_decode_rbInit : decodePort 0x00008 [] = .ok (.rbInit 8) := by decide
theorem test_decode_rbIsEmpty : decodePort 0x10000 [] = .ok .rbIsEmpty := by decide
theorem test_decode_rbDataLen : decodePort 0x20000 [] = .ok .rbDataLen := by decide
theorem test_decode_rbQueueBytes : decodePort 0x30000 [0x11, 0x22] = .ok (.rbQueueBytes [0x11, 0x22]) := by decide
theorem test_decode_rbDequeueByte : decodePort 0x40000 [] = .ok .rbDequeueByte := by decide
theorem test_decode_rbSetWriteIndex : decodePort 0x5000B [] = .ok (.rbSetWriteIndex 11) := by decide
theorem test_decode_rbIncrementReadIndex : decodePort 0x60005 [] = .ok (.rbIncrementReadIndex 5) := by decide
theorem test_decode_rbGetMaxContiguousSlice : decodePort 0x70000 [] = .ok .rbGetMaxContiguousSlice := by decide
theorem test_decode_rbArrayWrite : decodePort 0x80009 [0x00] = .ok (.rbArrayWrite 9 [0x00]) := by decide
theorem test_decode_rbArrayRead : decodePort 0x90007 [] = .ok (.rbArrayRead 7) := by decide
theorem test_decode_frPoll : decodePort 0xA0000 [] = .ok .frPoll := by decide
theorem test_decode_frSend : decodePort 0xB0010 [0x01, 0x02] = .ok (.frSend 0x10 [0x01, 0x02]) := by decide
theorem test_decode_dfuStateCheck : decodePort 0xC0000 [] = .ok .dfuStateCheck := by decide
theorem test_decode_reservedD : decodePort 0xD0000 [] = .ok .reservedD := by decide

/-- Both selectors of RESERVED_EF (95 FR-13). -/
theorem test_decode_reservedEF :
    decodePort 0xE1234 [] = .ok (.reservedEF false) ∧ decodePort 0xFFFFF [] = .ok (.reservedEF true) := by decide

/-- The frame INIT8("MTS/8") of 95 §0. -/
theorem test_decode_initReq :
    decode { ex with crc16Known := [(0x2A :: 0xE0 :: ([8, 0, 0, 0] ++ init8Tail mts8), 0x08ED)] }
      (.frame ([0xAA, 0x55, 0x2A, 0xE0, 0x08, 0x00, 0x00, 0x00] ++ init8Tail mts8 ++ [0xED, 0x08])) =
        .ok (.initReq ([8, 0, 0, 0] ++ init8Tail mts8)) := by decide

theorem test_decode_statusReq : decode ex (.frame [0xAA, 0x55, 0x00, 0xE2, 0x63, 0xC0]) = .ok (.statusReq []) := by decide

theorem test_decode_pageCreateReq :
    decode ex (.frame [0xAA, 0x55, 0x04, 0xE4, 0x04, 0x00, 0x00, 0x00, 0x4A, 0x70]) = .ok (.pageCreateReq [4, 0, 0, 0]) := by
  decide

theorem test_decode_writeDataEvt :
    decode ex (.frame [0xAA, 0x55, 0x04, 0xE6, 0x03, 0x01, 0x02, 0x03, 0xD5, 0x04]) = .ok (.writeDataEvt [3, 1, 2, 3]) := by
  decide

theorem test_decode_pageStoreReq :
    decode ex (.frame [0xAA, 0x55, 0x00, 0xE7, 0xC6, 0x90]) = .ok (.pageStoreReq []) := by decide

theorem test_decode_stateCheckResp :
    decode ex (.frame [0xAA, 0x55, 0x01, 0xEA, 0x01, 0xF4, 0x14]) = .ok (.stateCheckResp [1]) := by decide

theorem test_decode_cancelResp :
    decode ex (.frame [0xAA, 0x55, 0x00, 0xEC, 0xAD, 0x21]) = .ok (.cancelResp []) := by decide

theorem test_decode_fwd :
    decode ex (.frame [0xAA, 0x55, 0x02, 0x10, 0x01, 0x02, 0xB8, 0x39]) = .ok (.fwd 0x10 [1, 2]) := by decide

theorem test_decode_ignore :
    decode ex (.frame [0xAA, 0x55, 0x00, 0x20, 0x6D, 0x39]) = .ok (.ignore 0x20 []) := by decide

/-- Every reason the decoder rejects by (R110–R113): a wrong preamble, a length of 128 (FR-5), a bad CRC (FR-4), a frame
cut short, a byte after it. -/
theorem test_decode_rejects :
    decode ex (.frame [0xAA, 0x54, 0x00, 0xE2, 0x63, 0xC0]) = .error .badPreamble ∧
    decode ex (.frame [0xAA, 0x55, 0x80, 0xE2, 0x63, 0xC0]) = .error .lengthTooLong ∧
    decode ex (.frame [0xAA, 0x55, 0x01, 0x11, 0xFF, 0x1E, 0xD4]) = .error .crcMismatch ∧
    decode ex (.frame [0xAA, 0x55, 0x00, 0xE2, 0x63]) = .error .truncated ∧
    decode ex (.frame [0xAA, 0x55, 0x00, 0xE2, 0x63, 0xC0, 0x00]) = .error .trailingBytes := by decide

/-! ### Ring buffer (95 §2) -/

/-- RB-2. -/
theorem test_rbInit_accepted : (after (.rbInit 2) (start 8)).map (fun t => (t.rb.cap, limit t)) = some (2, 1) := by decide

/-- RB-2. -/
theorem test_rbInit_refused :
    (after (.rbInit 1) fresh).map (fun t => (t.rb.init, t.blk.faults.refusedOperand)) = some (false, true) := by decide

/-- RB-6: a buffer filled to C in Verbatim mode reads as empty. -/
theorem test_rbIsEmpty : (after .rbIsEmpty (ring 4 0 0 (cells [1, 2, 3, 4]))).map State.result = some (.bool true) := by decide

/-- RB-8. -/
theorem test_rbDataLen_wraps : (after .rbDataLen (ring 8 1 3 [])).map State.result = some (.half 6) := by decide

/-- RB-1. -/
theorem test_rbDataLen_uninitialised :
    (after .rbDataLen fresh).map (fun t => (t.result, t.blk.faults.rbNotInitialised)) = some (.half 0, true) := by decide

/-- RB-4, accepted to the last free slot and one past it. -/
theorem test_rbQueueBytes_limit :
    (after (.rbQueueBytes [0, 0]) (ring 8 5 0 (cells [1, 2, 3, 4, 5]))).map (fun t => (t.result, t.rb.wr)) =
      some (.bool true, 7) ∧
    (after (.rbQueueBytes [0, 0, 0]) (ring 8 5 0 (cells [1, 2, 3, 4, 5]))).map (fun t => (t.result, t.rb.wr)) =
      some (.bool false, 5) := by decide

/-- P1 line 4: four bytes wrap round the array. -/
theorem test_rbQueueBytes_wraps :
    (after (.rbQueueBytes [0x66, 0x77, 0x88, 0x99]) (ring 8 5 3 (cells [0x11, 0x22, 0x33, 0x44, 0x55]))).map (fun t => t.rb) =
      some { init := true, cap := 8, wr := 1, rd := 3, rba := cells [0x99, 0x22, 0x33, 0x44, 0x55, 0x66, 0x77, 0x88] } := by
  decide

/-- RB-7. -/
theorem test_rbDequeueByte_wraps :
    (after .rbDequeueByte (ring 8 0 7 [(7, 0x88)])).map (fun t => (t.result, t.rb.rd)) =
      some (.optByte (some 0x88), 0) := by decide

/-- RB-12. -/
theorem test_rbDequeueByte_unwritten :
    (after .rbDequeueByte (ring 8 3 0 [])).map (fun t => (t.result, t.rb.rd, t.blk.faults.rbUnwrittenRead)) =
      some (.optByte none, 0, true) := by decide

/-- RB-11. -/
theorem test_rbSetWriteIndex_reduced :
    (after (.rbSetWriteIndex 11) (ring 8 0 0 (cells [0x41, 0x42, 0x43]))).map (fun t => (t.rb.wr, occ t, t.blk.faults)) =
      some (3, 3, FaultBits.none) := by decide

/-- RB-13. -/
theorem test_rbSetWriteIndex_overrun :
    (after (.rbSetWriteIndex 1) (ring 8 3 0 (cells [1, 2, 3]))).map (fun t => (t.rb.wr, t.blk.faults.rbProducerOverrun)) =
      some (1, true) := by decide

/-- RB-17. -/
theorem test_rbIncrementReadIndex :
    (after (.rbIncrementReadIndex 5) (ring 8 1 3 [])).map (fun t => (t.rb.rd, occ t)) = some (0, 1) := by decide

/-- RB-17, over-advance. -/
theorem test_rbIncrementReadIndex_over :
    (after (.rbIncrementReadIndex 8) (ring 8 7 0 [])).map (fun t => (t.rb.rd, t.blk.faults.rbConsumerOveradvance)) =
      some (0, true) := by decide

/-- RB-9 and RB-10. -/
theorem test_rbGetMaxContiguousSlice :
    (after .rbGetMaxContiguousSlice (ring 8 2 6 [])).map State.result = some (.slice 6 2) ∧
    (after .rbGetMaxContiguousSlice (start 8)).map State.result = some (.slice 0 0) := by decide

/-- RB-15: an unread slot, and a free one. -/
theorem test_rbArrayWrite_overrun :
    (after (.rbArrayWrite 1 [9]) (ring 8 2 0 (cells [1, 2]))).map (fun t => (t.rb.rba, t.blk.faults.rbProducerOverrun)) =
      some (cells [1, 9], true) ∧
    (after (.rbArrayWrite 2 [7]) (ring 8 2 0 (cells [1, 2]))).map (fun t => (occ t, t.blk.faults)) =
      some (2, FaultBits.none) := by decide

/-- RB-15. -/
theorem test_rbArrayWrite_bad :
    (after (.rbArrayWrite 9 [0]) (start 8)).map (fun t => (t.rb.rba, t.blk.faults.rbBadIndex)) = some ([], true) ∧
    (after (.rbArrayWrite 0 [0x41, 0x42]) (start 8)).map (fun t => (t.rb.rba, t.blk.faults.refusedOperand)) =
      some ([], true) := by decide

/-- RB-16. -/
theorem test_rbArrayRead :
    (after (.rbArrayRead 0) (ring 8 1 3 [(0, 0x99)])).map (fun t => (t.result, t.rb.rd)) = some (.byte 0x99, 3) ∧
    (after (.rbArrayRead 5) (start 8)).map (fun t => (t.result, t.blk.faults.rbUnwrittenRead)) = some (.byte 0, true) := by
  decide

/-- RB-16. -/
theorem test_rbArrayRead_bad :
    (after (.rbArrayRead 8) (start 8)).map (fun t => (t.result, t.blk.faults.rbBadIndex)) = some (.byte 0, true) := by decide

/-- FR-13. -/
theorem test_reservedD :
    (after .reservedD (start 8)).map (fun t => (t.rb, t.blk.faults.refusedOpcode)) = some ((start 8).rb, true) := by decide

/-- FR-13. -/
theorem test_reservedEF :
    (after (.reservedEF true) fresh).map (fun t => (t.rb, t.blk.faults.refusedOpcode)) = some (fresh.rb, true) := by decide

/-! ### Frame codec (95 §3) -/

/-- FR-1: the last byte of a frame that is forwarded. -/
theorem test_frPoll_delivers :
    (after .frPoll (polling 7 2 0x39)).map (fun t => (t.fr.pos, t.logs.fwd)) = some (0, [(0x10, [1, 2])]) := by decide

/-- FR-5: a length of 128 resets the receiver. -/
theorem test_frPoll_length : (after .frPoll (polling 2 0 0x80)).map (fun t => (t.fr.pos, t.rb.rd)) = some (0, 1) := by decide

/-- FR-10. -/
theorem test_frSend :
    (after (.frSend 0x10 [1, 2]) fresh).map (fun t => (t.result, t.logs.tx)) =
      some (.bool true, [[0xAA, 0x55, 0x02, 0x10, 0x01, 0x02, 0xB8, 0x39]]) := by decide

/-- FR-10: an oversized payload is not sent. -/
theorem test_frSend_oversize : exec (.frSend 0x10 (zeros 128)) fresh = .next { fresh with result := .bool false } := by
  simp [exec, execFrSend, whenRunning, frSend, sendCommand, emit, zeros_length, fresh, State.reset, ret]

/-- FR-1, DFU-18. -/
theorem test_fwd :
    (after (.fwd 0x10 [1, 2]) lastPage).map (fun t => (t.logs.fwd, t.dfu)) = some ([(0x10, [1, 2])], lastPage.dfu) := by decide

/-- FR-2. -/
theorem test_ignore : after (.ignore 0x20 []) lastPage = some lastPage := by decide

/-! ### DFU engine (95 §4) -/

/-- DFU-2a. -/
theorem test_initReq_accepted :
    (after (.initReq ([8, 0, 0, 0] ++ init8Tail mts8)) (start 8)).map (fun t =>
        (t.logs.tx, t.dfu.inProgress, t.dfu.firmwareSize, flashBytes t 16)) =
      some ([[0xAA, 0x55, 0x01, 0xE1, 0x00, 0x2F, 0xD8]], true, 8, List.replicate 16 0xFF) := by decide

/-- DFU-2e: 17 bytes do not fit the region of 16. -/
theorem test_initReq_too_large :
    (after (.initReq ([17, 0, 0, 0] ++ init8Tail mts8)) lastPage).map (fun t => (t.logs.tx, t.dfu, t.flash)) =
      some ([[0xAA, 0x55, 0x01, 0xE1, 0x03, 0x4C, 0xE8]], Session.initial, lastPage.flash) := by decide

/-- DFU-1. -/
theorem test_validateApp :
    validateApp ex [0x41, 0x4E, 0x59] = .valid ∧ validateApp ex mts8 = .valid ∧
    validateApp ex [0x4D, 0x54, 0x53, 0x2F, 0x37] = .upToDate ∧ validateApp ex [0x2F, 0x37] = .invalid ∧
    validateApp ex [0x4D, 0x54, 0x53, 0x2F, 0x37, 0x2F, 0x78] = .valid ∧ validateApp ex [] = .invalid := by decide

/-- DFU-5, idle. -/
theorem test_statusReq_idle :
    (after (.statusReq [9, 9]) (start 8)).map (fun t => t.logs.tx) =
      some [[0xAA, 0x55, 0x0D, 0xE3, 0x00, 0x00, 0x04, 0x00, 0x00, 0x00, 0x00, 0x00, 0x00, 0x00, 0x00, 0x00, 0x00,
        0x22, 0x61]] := by decide

/-- DFU-5, a partial page: the payload's offset and checksum. -/
theorem test_statusReq_page :
    statusPayload (session 8 0 6 [1, 2, 3] []) =
      [0x00, 0x00, 0x04, 0x00, 0x00, 0x03, 0x00, 0x00, 0x00, 0x1D, 0x80, 0xBC, 0x55] := by decide

/-- DFU-6b and DFU-6c. -/
theorem test_pageCreateReq_bounds :
    (after (.pageCreateReq [0, 4, 0, 0]) (session 8 0 6 [1] [])).map (fun t => (t.dfu.pageSize, t.dfu.pageOffset)) =
      some (1024, 0) ∧
    (after (.pageCreateReq [1, 4, 0, 0]) (session 8 0 6 [1] [])).map (fun t => (t.dfu.pageSize, t.logs.tx)) =
      some (6, [[0xAA, 0x55, 0x01, 0xE5, 0x03, 0x88, 0x24]]) := by decide

/-- DFU-6a. -/
theorem test_pageCreateReq_idle :
    (after (.pageCreateReq [4, 0, 0, 0]) (start 8)).map (fun t => t.logs.tx) =
      some [[0xAA, 0x55, 0x01, 0xE5, 0x04, 0x6F, 0x54], [0xAA, 0x55, 0x00, 0xEB, 0x4A, 0x51]] := by decide

/-- DFU-7d: a chunk that ends exactly at the page's end. -/
theorem test_writeDataEvt_fits :
    (after (.writeDataEvt [5, 4, 5, 6, 7, 9]) (session 8 0 8 [1, 2, 3] [])).map (fun t => (t.dfu.pageOffset, pageBytes t)) =
      some (8, [1, 2, 3, 4, 5, 6, 7, 9]) := by decide

/-- DFU-7c. -/
theorem test_writeDataEvt_dropped :
    after (.writeDataEvt [6, 4, 5, 6, 7, 9, 9]) (session 8 0 8 [1, 2, 3] []) = some (session 8 0 8 [1, 2, 3] []) := by decide

/-- P3 line 10: the last page commits. -/
theorem test_pageStoreReq_commits :
    (after (.pageStoreReq []) lastPage).map (fun t => (t.logs, t.blk.halted, t.dfu, flashBytes t 8)) =
      some ({ tx := [[0xAA, 0x55, 0x01, 0xE8, 0x06, 0x71, 0x02]], fwd := [], commit := [2] }, true, Session.initial,
        [1, 2, 3, 4, 5, 6, 7, 8]) := by decide

/-- DFU-12's tail padding and DFU-9's failing write. -/
theorem test_pageStoreReq_flash :
    (after (.pageStoreReq []) (session 8 0 3 [5, 4, 3] [])).map (fun t => (t.dfu.firmwareOffset, flashBytes t 4)) =
      some (3, [5, 4, 3, 0xFF]) ∧
    (after (.pageStoreReq []) (flashFails (session 8 0 8 [1, 2, 3, 4, 5, 6, 7, 9] []))).map (fun t =>
        (t.dfu.firmwareOffset, t.dfu.pageOffset, flashBytes t 8, t.logs.tx)) =
      some (0, 8, List.replicate 8 0, [[0xAA, 0x55, 0x01, 0xE8, 0x05, 0x12, 0x32]]) := by decide

/-- DFU-14. -/
theorem test_stateCheckResp :
    (after (.stateCheckResp [1]) (start 8)).map (fun t => t.logs.tx) = some [[0xAA, 0x55, 0x00, 0xEB, 0x4A, 0x51]] ∧
    after (.stateCheckResp [7]) lastPage = some lastPage := by decide

/-- DFU-15. -/
theorem test_cancelResp :
    (after (.cancelResp []) lastPage).map (fun t => (t.dfu, t.flash, t.logs.tx)) =
      some (Session.initial, lastPage.flash, []) := by decide

/-- DFU-16. -/
theorem test_dfuStateCheck :
    (after .dfuStateCheck fresh).map (fun t => (t.result, t.logs.tx)) =
      some (.bool true, [[0xAA, 0x55, 0x00, 0xE9, 0x08, 0x71]]) ∧
    (after .dfuStateCheck (txFails fresh)).map (fun t => (t.result, t.logs.tx)) = some (.bool false, []) := by decide

/-! ### Memory, the fetch, R104's pseudo-operations -/

theorem test_memory_wf :
    Memory.wf .flash lastPage.flash ∧ Memory.wf .pbuf lastPage.dfu.pbuf ∧ ¬ Memory.wf .rba [(1, 0), (0, 0)] ∧
    ¬ Memory.wf .pbuf [(0, 0)] := by decide

/-- Writing the byte an unlisted PBUF cell reads as removes the entry. -/
theorem test_memory_canonical : memWrite .pbuf [(0, 5), (1, 6)] 0 [0] = [(1, 6)] := by decide

/-- P5 line 1: the requests of DMA_PUSH. -/
theorem test_dmaPush :
    dmaPush (start 8) [0xAA, 0x55] =
      [.request { agent := .producer, word := 0x80000, data := [0xAA] },
       .request { agent := .producer, word := 0x80001, data := [0x55] },
       .request { agent := .producer, word := 0x50002, data := [] }] := by decide

/-- P5 line 6: the requests of READ_SLICE. -/
theorem test_readSlice :
    readSlice 5 3 =
      [.request { agent := .consumer, word := 0x90005, data := [] },
       .request { agent := .consumer, word := 0x90006, data := [] },
       .request { agent := .consumer, word := 0x90007, data := [] },
       .request { agent := .consumer, word := 0x60003, data := [] }] := by decide

/-- A request word is what the next step after reset runs. -/
theorem test_withFetchWord :
    (stepped (State.reset.withFetchWord 24 0x00008)).map (fun t => t.rb.cap) = some 8 ∧
    decodeTableWord 24 0x00008 = some (.rbInit 8) := by decide

/-! ### Witnesses: states and operands that meet the hypotheses of each statement, clause by clause -/

theorem test_witness_RbInitAssignsCapacityAndZeroesCursors :
    Running fresh ∧ 2 ≤ (2#16).toNat ∧ 2 ≤ (65535#16).toNat ∧ (1#16).toNat < 2 := by decide

theorem test_witness_RefusedRequestsOnlySetTheirFaultBit :
    Running (start 8) ∧ 0xD ≤ requestOp 0xD0000 ∧ 0xD ≤ requestOp 0xFFFFF ∧ ([] : Bytes).length ≤ 65535 ∧
    (1#16).toNat < 2 ∧ (start 8).rb.init = true ∧ ([] : Bytes).length ≠ 1 ∧ ([0, 0] : Bytes).length ≠ 1 ∧
    (0x0100#16).extractLsb' 8 8 ≠ 0#8 := by decide

theorem test_witness_ReservedSelectorsCompleteAsRefused : Running (start 8) ∧ Running fresh := by decide

theorem test_witness_UninitialisedRingBufferOnlyFaults :
    neutralResult .rbDataLen = some (.half 0) ∧ haltedState.blk.halted = true ∧ Running fresh ∧ fresh.rb.init = false := by
  decide

theorem test_witness_RbIsEmptyReturnsCursorEquality :
    (Running (start 8) ∧ (start 8).rb.init = true) ∧ Running fresh ∧ fresh.rb.init = false := by decide

/-- Full up to the reserved slot, and wrapped. -/
theorem test_witness_RbDataLenReturnsOccupancy :
    RbReady (ring 8 7 0 []) ∧ CursorsOk (ring 8 7 0 []) ∧ CursorsOk (ring 2 0 1 []) := by decide

/-- One byte past the limit, the limit itself, and C in Verbatim mode. -/
theorem test_witness_RbQueueBytesAppendsOrRejects :
    (RbReady (ring 8 5 0 []) ∧ CursorsOk (ring 8 5 0 []) ∧
      limit (ring 8 5 0 []) < ([0, 0, 0] : Bytes).length + occ (ring 8 5 0 [])) ∧
    ([0, 0] : Bytes).length + occ (ring 8 5 0 []) ≤ limit (ring 8 5 0 []) ∧
    ([0, 0, 0] : Bytes).length + occ { ring 8 5 0 [] with cfg := { ex with fullMode := .verbatim } } ≤
      limit { ring 8 5 0 [] with cfg := { ex with fullMode := .verbatim } } := by decide

theorem test_witness_RejectedQueueChangesNothing :
    (ring 8 5 0 []).rb.init = true ∧
    (after (.rbQueueBytes [0, 0, 0]) (ring 8 5 0 [])).map State.result = some (.bool false) := by decide

theorem test_witness_RbDequeueByteTakesOneByte :
    (RbReady (ring 8 7 7 []) ∧ (ring 8 7 7 []).rb.wr = (ring 8 7 7 []).rb.rd) ∧
    ((ring 8 3 0 []).rb.wr ≠ (ring 8 3 0 []).rb.rd ∧ (ring 8 3 0 []).cell .rba 0 = none) ∧
    CursorsOk (ring 8 0 7 [(7, 0)]) ∧ (ring 8 0 7 [(7, 0)]).rb.wr ≠ (ring 8 0 7 [(7, 0)]).rb.rd ∧
    (ring 8 0 7 [(7, 0)]).cell .rba 7 = some 0 := by decide

theorem test_witness_RbSetWriteIndexPublishes : RbReady (ring 8 7 0 []) ∧ CursorsOk (ring 8 7 0 []) := by decide

theorem test_witness_RbIncrementReadIndexAdvances : RbReady (ring 8 7 7 []) ∧ CursorsOk (ring 8 7 7 []) := by decide

/-- An empty buffer, a run to `wr`, a run to the array's end. -/
theorem test_witness_RbSliceIsLongestUnwrappedRun :
    RbReady (start 8) ∧ CursorsOk (start 8) ∧ CursorsOk (ring 8 7 0 []) ∧
    CursorsOk (ring 8 0 7 []) ∧ (ring 8 0 7 []).rb.wr.toNat < (ring 8 0 7 []).rb.rd.toNat := by decide

/-- The last index, and the first beyond the array. -/
theorem test_witness_RbArrayWritePlacesByte :
    RbReady (start 8) ∧ (7#16).toNat < (start 8).rb.cap.toNat ∧ (start 8).rb.cap.toNat ≤ (8#16).toNat := by decide

theorem test_witness_RbArrayReadReturnsCell :
    RbReady (ring 8 0 0 [(7, 5)]) ∧ (7#16).toNat < (ring 8 0 0 [(7, 5)]).rb.cap.toNat ∧
    (ring 8 0 0 [(7, 5)]).cell .rba 7 = some 5 ∧ (ring 8 0 0 [(7, 5)]).cell .rba 6 = none ∧
    (ring 8 0 0 [(7, 5)]).rb.cap.toNat ≤ (8#16).toNat := by decide

/-- A run that queues and dequeues with no fault and ends empty. -/
theorem test_witness_FifoLaw :
    Running fresh ∧ 2 ≤ (2#16).toNat ∧ fresh.blk.faults = FaultBits.none ∧
    (after (.rbInit 2) fresh).isSome = true ∧
    (fifoRun [.queue [1], .queue [2], .dequeue] (start 2)).map (fun r => (r.1, r.2.1, isEmpty r.2.2, r.2.2.blk.faults)) =
      some ([1], [1], true, FaultBits.none) := by decide

theorem test_witness_EachCursorHasOneWriter :
    owner (.rbQueueBytes [1]) = some .producer ∧ (after (.rbQueueBytes [1]) (start 8)).isSome = true ∧
    owner .frPoll = some .consumer ∧ (after .frPoll (polling 7 2 0x39)).isSome = true := by decide

theorem test_witness_FrPollConsumesOneByte :
    haltedState.blk.halted = true ∧
    (Running fresh ∧ fresh.rb.init = false) ∧ (RbReady (start 8) ∧ (start 8).rb.wr = (start 8).rb.rd) ∧
    (RbReady (ring 8 3 0 []) ∧ (ring 8 3 0 []).rb.wr ≠ (ring 8 3 0 []).rb.rd ∧ (ring 8 3 0 []).cell .rba 0 = none) ∧
    PollReads (polling 7 2 0x39) 0x39 ∧ CursorsOk (polling 7 2 0x39) ∧
    (polling 7 2 0x39).fr.pos.toNat ≤ 5 + (polling 7 2 0x39).fr.len.toNat := by decide

/-- The lengths 127 and 128 among them. -/
theorem test_witness_FrPollScansPreambleAndLength :
    (PollReads (polling 0 0 0xAA) 0xAA ∧ (polling 0 0 0xAA).fr.pos = 0) ∧
    (PollReads (polling 1 0 0x55) 0x55 ∧ (polling 1 0 0x55).fr.pos = 1) ∧
    (PollReads (polling 2 0 127) 127 ∧ (polling 2 0 127).fr.pos = 2 ∧ (127#8).toNat ≤ 127) ∧
    PollReads (polling 2 0 128) 128 ∧ 127 < (128#8).toNat := by decide

/-- The first and the last payload byte of the longest frame, and its CRC. -/
theorem test_witness_FrPollCollectsFrameBody :
    (PollReads (polling 3 0 1) 1 ∧ (polling 3 0 1).fr.pos = 3) ∧
    (PollReads (polling 4 127 1) 1 ∧ (polling 4 127 1).fr.len.toNat ≤ 127 ∧ 4 ≤ (polling 4 127 1).fr.pos.toNat) ∧
    (polling 130 127 1).fr.pos.toNat < 4 + (polling 130 127 1).fr.len.toNat ∧
    PollReads (polling 131 127 1) 1 ∧ (polling 131 127 1).fr.pos.toNat = 4 + (polling 131 127 1).fr.len.toNat := by decide

/-- The two CRC bytes of FR-1, and a wrong high byte. -/
theorem test_witness_FrPollChecksCrc :
    PollReads (polling 7 2 0x39) 0x39 ∧ (polling 7 2 0x39).fr.pos.toNat = 5 + (polling 7 2 0x39).fr.len.toNat ∧
    ([1, 2] : Bytes).length = (polling 7 2 0x39).fr.len.toNat ∧ Holds (polling 7 2 0x39) .rxp 0 [1, 2] ∧
    0xB8 + 256 * 0x39 = (ex.crc16 [2, 0x10, 1, 2]).toNat ∧
    PollReads (polling 7 2 0x38) 0x38 ∧ 0xB8 + 256 * 0x38 ≠ (ex.crc16 [2, 0x10, 1, 2]).toNat := by decide

theorem test_witness_DispatchSelectsExactlyOneRow :
    ex.Valid ∧ 0x11#8 ∈ ex.forwardSet ∧ 0x20#8 ∉ receiveCodes ex ∧ 0x20#8 ∉ ex.forwardSet := by decide

theorem test_witness_ReceiverRoundTrip :
    ([1, 2] : Bytes).length ≤ 127 ∧ (start 8).fr.pos = 0 ∧
    (receiveAll (wireFrame ex 0x10 [1, 2]) (start 8)).isSome = true := by decide

/-- The first and the last bit the clause covers. -/
theorem test_witness_BitFlipAfterLengthDroppedIffCrcDiffers :
    ([1, 2] : Bytes).length ≤ 127 ∧ (start 8).fr.pos = 0 ∧ 24 ≤ 24 ∧ 24 < 8 * (([1, 2] : Bytes).length + 6) ∧
    63 < 8 * (([1, 2] : Bytes).length + 6) := by decide

theorem test_witness_FrSendTransmitsWholeFrameOrNothing :
    haltedState.blk.halted = true ∧ Running fresh ∧ (0x10#16).extractLsb' 8 8 = 0#8 ∧ (zeros 127).length ≤ 127 ∧ 127 < (zeros 128).length ∧
    (0x0110#16).extractLsb' 8 8 ≠ 0#8 := by
  refine ⟨rfl, rfl, by decide, ?_, ?_, by decide⟩
  · rw [zeros_length]
  · rw [zeros_length]
    decide

theorem test_witness_DfuStateCheckEmitsRequest :
    haltedState.blk.halted = true ∧ Running fresh ∧ (drawTx (txFails fresh).draws).1 = .fail := by decide

theorem test_witness_ForwardAppendsAndIgnoreDoesNothing : Running lastPage := by decide

theorem test_witness_ValidateAppSplitsAtFirstSlash :
    (([] : Bytes) ≠ ex.bypassToken ∧ 0x2F#8 ∉ ([] : Bytes)) ∧
    (0x2F#8 ∉ ex.productTag ∧ ex.productTag ++ 0x2F#8 :: ex.runningBuild ≠ ex.bypassToken) ∧
    ([] : Bytes) ≠ ex.productTag ∧ ([] : Bytes) ≠ ex.runningBuild := by decide

/-- One byte short of each layout. -/
theorem test_witness_MalformedPayloadsAreDropped :
    Running lastPage ∧ (List.replicate 36 0#8).length < 37 ∧
    (List.replicate 36 0#8 ++ [5, 0, 0]).length < 37 + (byteAt (List.replicate 36 0#8 ++ [5, 0, 0]) 36).toNat ∧
    ([1, 0, 0] : Bytes).length < 4 ∧ ([9, 1] : Bytes).length < 1 + (byteAt [9, 1] 0).toNat ∧ ([] : Bytes).length < 1 := by
  decide

/-- An image of the region's size, and one byte larger. -/
theorem test_witness_InitReqOutcomes :
    ([] : Bytes).length < 37 ∧ Running lastPage ∧ (ex.sha256 [1, 2, 3, 4, 5, 6, 7, 8]).length = 32 ∧ mts8.length ≤ 255 ∧
    validateApp ex [] = .invalid ∧ validateApp ex [0x4D, 0x54, 0x53, 0x2F, 0x37] = .upToDate ∧
    validateApp ex mts8 = .valid ∧ ex.flashRegionSize < (17#32).toNat ∧ (16#32).toNat ≤ ex.flashRegionSize := by decide

theorem test_witness_StatusReportsProgressAndCrc :
    Running lastPage ∧ ([1, 2, 3, 4] : Bytes).length = lastPage.dfu.firmwareOffset.toNat ∧
    ([5, 6, 7, 8] : Bytes).length = lastPage.dfu.pageOffset.toNat ∧ Holds lastPage .flash 0 [1, 2, 3, 4] ∧
    Holds lastPage .pbuf 0 [5, 6, 7, 8] := by decide

/-- The sizes 1024 and 1025, and a payload one byte short. -/
theorem test_witness_PageCreateOpensPage :
    (Running (start 8) ∧ (start 8).dfu.inProgress = false) ∧ (Running lastPage ∧ lastPage.dfu.inProgress = true) ∧
    1024 < (1025#32).toNat ∧ (1024#32).toNat ≤ 1024 ∧ ([0, 0, 0] : Bytes).length < 4 := by decide

/-- A chunk that ends at the page's end, and one byte more. -/
theorem test_witness_WriteDataAppendsChunkOrDropsIt :
    (Running (start 8) ∧ (start 8).dfu.inProgress = false) ∧
    Running (session 8 0 8 [1, 2, 3] []) ∧ (session 8 0 8 [1, 2, 3] []).dfu.inProgress = true ∧
    (session 8 0 8 [1, 2, 3] []).dfu.pageOffset.toNat + ([4, 5, 6, 7, 8] : Bytes).length ≤
      (session 8 0 8 [1, 2, 3] []).dfu.pageSize.toNat ∧
    (session 8 0 8 [1, 2, 3] []).dfu.pageSize.toNat <
      (session 8 0 8 [1, 2, 3] []).dfu.pageOffset.toNat + ([4, 5, 6, 7, 8, 9] : Bytes).length ∧
    ([9, 1] : Bytes).length < 1 + (byteAt [9, 1] 0).toNat := by decide

theorem test_witness_PageStoreEntryChecks :
    (Running (start 8) ∧ (start 8).dfu.inProgress = false) ∧
    (Running (session 8 0 8 [] []) ∧ (session 8 0 8 [] []).dfu.inProgress = true ∧
      (session 8 0 8 [] []).dfu.pageOffset = 0) ∧
    (session 8 0 8 [1] []).dfu.pageOffset ≠ 0 ∧
    (session 8 0 8 [1] []).dfu.pageOffset ≠ (session 8 0 8 [1] []).dfu.pageSize := by decide

/-- A misaligned page (DFU-10a), one beyond the region (DFU-10b), and a `fail` draw for one that fits. -/
theorem test_witness_FailedPageStoreKeepsSession :
    (Running (session 8 3 1 [1] []) ∧ (session 8 3 1 [1] []).dfu.inProgress = true ∧
      (session 8 3 1 [1] []).dfu.pageOffset ≠ 0 ∧
      (session 8 3 1 [1] []).dfu.pageOffset = (session 8 3 1 [1] []).dfu.pageSize ∧ (0x8000 + 3) % 4 ≠ 0) ∧
    ex.flashRegionSize < 16 + (1 + 4 - 1) / 4 * 4 ∧
    ((0x8000 + 12) % 4 = 0 ∧ 12 + (4 + 4 - 1) / 4 * 4 ≤ ex.flashRegionSize) ∧
    (drawFlash (flashFails (session 16 12 4 [1, 2, 3, 4] [])).draws).1 = .fail := by decide

/-- The last page that fits the region, in an image that is not complete after it. -/
theorem test_witness_PageStoreWritesPageAndAdvances :
    let s := session 8 12 4 [1, 2, 3, 4] []
    Running s ∧ s.cfg.Valid ∧ s.dfu.inProgress = true ∧ s.dfu.pageOffset ≠ 0 ∧ s.dfu.pageOffset = s.dfu.pageSize ∧
    ([1, 2, 3, 4] : Bytes).length = s.dfu.pageOffset.toNat ∧ Holds s .pbuf 0 [1, 2, 3, 4] ∧
    (0x8000 + 12) % 4 = 0 ∧ 12 + (4 + 4 - 1) / 4 * 4 ≤ s.cfg.flashRegionSize ∧ (drawFlash s.draws).1 = .ok ∧
    12 + 4 ≠ s.dfu.firmwareSize.toNat := by decide

theorem test_witness_DigestMismatchResetsSession :
    Running badLastPage ∧ badLastPage.cfg.Valid ∧ badLastPage.dfu.inProgress = true ∧ badLastPage.dfu.pageOffset ≠ 0 ∧
    badLastPage.dfu.pageOffset = badLastPage.dfu.pageSize ∧
    ([5, 6, 7, 9] : Bytes).length = badLastPage.dfu.pageOffset.toNat ∧ Holds badLastPage .pbuf 0 [5, 6, 7, 9] ∧
    ([1, 2, 3, 4] : Bytes).length = badLastPage.dfu.firmwareOffset.toNat ∧ Holds badLastPage .flash 0 [1, 2, 3, 4] ∧
    flashAdmits badLastPage.cfg (0x8000 + 4) 4 = true ∧ (drawFlash badLastPage.draws).1 = .ok ∧
    4 + 4 = badLastPage.dfu.firmwareSize.toNat ∧
    badLastPage.cfg.sha256 [1, 2, 3, 4, 5, 6, 7, 9] ≠ badLastPage.dfu.expectedSha256 := by decide

theorem test_witness_MatchingDigestCommitsAndHalts :
    Running lastPage ∧ lastPage.cfg.Valid ∧ lastPage.dfu.inProgress = true ∧ lastPage.dfu.pageOffset ≠ 0 ∧
    lastPage.dfu.pageOffset = lastPage.dfu.pageSize ∧ ([5, 6, 7, 8] : Bytes).length = lastPage.dfu.pageOffset.toNat ∧
    Holds lastPage .pbuf 0 [5, 6, 7, 8] ∧ ([1, 2, 3, 4] : Bytes).length = lastPage.dfu.firmwareOffset.toNat ∧
    Holds lastPage .flash 0 [1, 2, 3, 4] ∧ flashAdmits lastPage.cfg (0x8000 + 4) 4 = true ∧
    (drawFlash lastPage.draws).1 = .ok ∧ 4 + 4 = lastPage.dfu.firmwareSize.toNat ∧
    lastPage.cfg.sha256 [1, 2, 3, 4, 5, 6, 7, 8] = lastPage.dfu.expectedSha256 := by decide

theorem test_witness_StateCheckRespCancelsOnDisagreement :
    Running (start 8) ∧ decide (1#8 ≠ 0) ≠ (start 8).dfu.inProgress ∧ decide (255#8 ≠ 0) = lastPage.dfu.inProgress := by decide

theorem test_witness_CancelRespResetsSession : Running lastPage := by decide

theorem test_witness_OutOfSessionLaw :
    Running (start 8) ∧ (start 8).dfu = Session.initial ∧ 4 ≤ ([4, 0, 0, 0] : Bytes).length ∧
    1 + (byteAt [3, 0, 0, 0] 0).toNat ≤ ([3, 0, 0, 0] : Bytes).length ∧ isFrame (.fwd 0x10 []) = true ∧
    (after (.fwd 0x10 []) (start 8)).isSome = true := by decide

/-- The invariant, at a state in the middle of an update whose write succeeds. -/
theorem test_witness_FirmwareOffsetAdvancesOnlyByWrittenPages :
    Inv (session 8 0 4 [1, 2, 3, 4] []) ∧
    (after (.pageStoreReq []) (session 8 0 4 [1, 2, 3, 4] [])).map (fun t => t.dfu.firmwareOffset) = some 4 :=
  ⟨⟨by decide, by decide, by decide, by decide, by decide, by decide⟩, by decide⟩

theorem test_witness_HandlersRaiseNoModelFault :
    (isFrame (.pageStoreReq []) = true ∧ (after (.pageStoreReq []) lastPage).isSome = true) ∧
    ((0x10#16).extractLsb' 8 8 = 0#8 ∧ (after (.frSend 0x10 [1, 2]) lastPage).isSome = true) ∧
    (after .frPoll (polling 7 2 0x39)).isSome = true := by decide

theorem test_witness_FaultsAreStickyUntilReset :
    hasFault (raiseFault .rbBadIndex (start 8)).blk.faults .rbBadIndex = true ∧ (start 8).inbox = [] ∧
    (stepped (raiseFault .rbBadIndex (start 8))).isSome = true ∧
    ({ start 8 with inbox := [.reset] } : State).inbox = .reset :: [] := by decide

theorem test_witness_TransmitLogGrowsByWholeFrames : (after (.statusReq []) (start 8)).isSome = true := by decide

theorem test_witness_CommitIsTheOnlyWayToHalt :
    (after (.pageStoreReq []) lastPage).map (fun t => t.blk.halted) = some true ∧
    (after .rbIsEmpty lastPage).map (fun t => t.blk.halted) = some false := by decide

theorem test_witness_SharingTable :
    (isFrame .rbIsEmpty = false ∧ Instr.rbIsEmpty ≠ .frPoll ∧ (after .rbIsEmpty lastPage).isSome = true) ∧
    isFrame (.statusReq []) = true ∧ (after (.statusReq []) (start 8)).isSome = true := by decide

theorem test_witness_ConfigurationIsFixed : (stepped (placeRequest pollRequest (start 8))).isSome = true := by decide

theorem test_witness_HaltedEnablesNoOperation :
    haltedState.blk.halted = true ∧
    ({ haltedState with inbox := [.request pollRequest] } : State).inbox = .request pollRequest :: [] ∧
    ({ haltedState with inbox := [.reset] } : State).inbox = .reset :: [] := by decide

theorem test_witness_StepRunsDecodedRequest :
    Running (start 8) ∧ decodePort pollRequest.word pollRequest.data = .ok .frPoll ∧
    owns pollRequest.agent .frPoll = true ∧ owns .host .frPoll = false ∧ (start 8).inbox = [] ∧
    65535 < (zeros 65536).length := by
  refine ⟨rfl, by decide, by decide, by decide, rfl, ?_⟩
  rw [zeros_length]
  decide

theorem test_witness_ExternalResetSetsResetColumn :
    ({ haltedState with inbox := [.reset] } : State).inbox = .reset :: [] ∧ haltedState.inbox = [] ∧
    (stepped haltedState).map (fun t => t.blk.halted) = some true := by decide

theorem test_witness_BootReachesLaunchState : ex.Valid := test_ex_valid

/-- The invariant, at a step that delivers a frame. -/
theorem test_witness_EveryStepKeepsInv :
    Inv (placeRequest pollRequest (polling 7 2 0x39)) ∧
    (stepped (placeRequest pollRequest (polling 7 2 0x39))).map (fun t => t.logs.fwd) = some [(0x10, [1, 2])] :=
  ⟨⟨by decide, by decide, by decide, by decide, by decide, by decide⟩, by decide⟩

theorem test_witness_EveryEnabledOperationCompletes : Inv (polling 7 2 0x39) ∧ Running (polling 7 2 0x39) :=
  ⟨⟨by decide, by decide, by decide, by decide, by decide, by decide⟩, rfl⟩

theorem test_witness_DecodeOfEncodeIsIdentity :
    ex.Valid ∧ wellFormed ex (.fwd 0x11 [1, 2]) = true ∧ wellFormed ex (.rbQueueBytes [1]) = true := by decide

end Sys2Proof.Tests
end

section
/-! SUPPORT. Proofs of the state family: what each instruction can do to the block, said once (`InstrEffect`), and the
laws of 10_state.md, section 4 that follow. -/

namespace Sys2Proof.Machine

/-! ### What a ring-buffer operation can do (40_ring_buffer.md R140–R150) -/

/-- The effects an operation of the agent `g` can have on the ring buffer, with the faults it raises and the value it
returns: each cursor is moved modulo C by its own agent, a cell is written by PRODUCER alone (R153). -/
inductive RingEffect (g : Option Agent) (s : State) : State → Prop
  | keep : RingEffect g s s
  | restart (c : BitVec 16) (hg : g = some .host) (hc : 2 ≤ c.toNat) :
      RingEffect g s { s with rb := { init := true, cap := c, wr := 0, rd := 0, rba := [] } }
  | moveRd (n : Nat) (hg : g = some .consumer) : RingEffect g s (setRd (n % capacity s) s)
  | moveWr (n : Nat) (hg : g = some .producer) : RingEffect g s (setWr (n % capacity s) s)
  | append (data : Bytes) (hg : g = some .producer) (hi : s.rb.init = true) : RingEffect g s (appendBytes data s)
  | place (i : Nat) (b : Byte) (hg : g = some .producer) (hi : i < capacity s) : RingEffect g s (placeByte i b s)
  | raised (c : FaultCode) {u : State} (h : RingEffect g s u) : RingEffect g s (raiseFault c u)
  | returned (r : Result) {u : State} (h : RingEffect g s u) : RingEffect g s (ret r u)

namespace RingEffect

variable {g : Option Agent} {s t : State}

/-- The ring-buffer operations leave the rest of the block alone (70_reset_and_hazards.md R272). -/
theorem frame (h : RingEffect g s t) :
    t.cfg = s.cfg ∧ t.fr = s.fr ∧ t.dfu = s.dfu ∧ t.flash = s.flash ∧ t.logs = s.logs ∧
      t.blk.halted = s.blk.halted := by
  induction h with
  | raised _ _ ih => exact ih
  | returned _ _ ih => exact ih
  | _ => exact ⟨rfl, rfl, rfl, rfl, rfl, rfl⟩

theorem faults_sticky (h : RingEffect g s t) (c : FaultCode) (hc : hasFault s.blk.faults c = true) :
    hasFault t.blk.faults c = true := by
  induction h with
  | raised d _ ih => simp [hasFault_addFault, ih]
  | returned _ _ ih => exact ih
  | _ => exact hc

theorem producer_keeps_rd (h : RingEffect g s t) (hp : g = some .producer) : t.rb.rd = s.rb.rd := by
  induction h with
  | restart _ hg => simp [hp] at hg
  | moveRd _ hg => simp [hp] at hg
  | raised _ _ ih => exact ih
  | returned _ _ ih => exact ih
  | _ => rfl

theorem consumer_keeps_wr_rba (h : RingEffect g s t) (hp : g = some .consumer) :
    t.rb.wr = s.rb.wr ∧ t.rb.rba = s.rb.rba := by
  induction h with
  | restart _ hg => simp [hp] at hg
  | moveWr _ hg => simp [hp] at hg
  | append _ hg => simp [hp] at hg
  | place _ _ hg => simp [hp] at hg
  | raised _ _ ih => exact ih
  | returned _ _ ih => exact ih
  | _ => exact ⟨rfl, rfl⟩

end RingEffect

/-- A cursor held modulo C fits its register (10_state.md R33). -/
theorem toNat_ofNat_mod_capacity (n : Nat) {s : State} (hc : 0 < capacity s) :
    (BitVec.ofNat 16 (n % capacity s)).toNat = n % capacity s := by
  have hlt := Nat.mod_lt n hc
  have hcap : capacity s < 2 ^ 16 := s.rb.cap.isLt
  rw [BitVec.toNat_ofNat, Nat.mod_eq_of_lt (by omega)]

theorem setRd_cursorsOk (n : Nat) {s : State} (h : CursorsOk s) : CursorsOk (setRd (n % capacity s) s) := by
  obtain ⟨hc, hw, _⟩ := h
  refine ⟨hc, hw, ?_⟩
  rw [setRd_rb, toNat_ofNat_mod_capacity n (by omega)]
  exact Nat.mod_lt n (by omega)

theorem setWr_cursorsOk (n : Nat) {s : State} (h : CursorsOk s) : CursorsOk (setWr (n % capacity s) s) := by
  obtain ⟨hc, _, hr⟩ := h
  refine ⟨hc, ?_, hr⟩
  rw [setWr_rb, toNat_ofNat_mod_capacity n (by omega)]
  exact Nat.mod_lt n (by omega)

theorem RingEffect.ringOk {g : Option Agent} {s t : State} (h : RingEffect g s t) (hs : RingOk s) : RingOk t := by
  obtain ⟨hcur, hwf, hin⟩ := hs
  induction h with
  | keep => exact ⟨hcur, hwf, hin⟩
  | restart c _ hc =>
    have hpos : 0 < c.toNat := by omega
    exact ⟨fun _ => ⟨hc, hpos, hpos⟩, nil_wf _, fun _ h => nomatch h⟩
  | moveRd n => exact ⟨fun hi => setRd_cursorsOk n (hcur hi), hwf, hin⟩
  | moveWr n => exact ⟨fun hi => setWr_cursorsOk n (hcur hi), hwf, hin⟩
  | append data _ hi =>
    have hc : 0 < capacity s := Nat.lt_of_lt_of_le (by decide) (hcur hi).1
    obtain ⟨hwf', hin'⟩ := writeWrapped_ok (capacity s) hc data s.rb.wr.toNat s.rb.rba hwf hin
    exact ⟨fun _ => setWr_cursorsOk _ (hcur hi), hwf', hin'⟩
  | place i b _ hlt =>
    refine ⟨hcur, memWrite_wf _ _ _ _ hwf, fun c hc => ?_⟩
    rcases mem_memWrite hc with hc | ⟨hle, hub⟩
    · exact hin c hc
    · simp only [List.length_singleton] at hub
      show c.1 < capacity s
      omega
  | raised _ _ ih => exact ih
  | returned _ _ ih => exact ih

/-! ### Each ring-buffer operation's effect -/

section
variable {g : Option Agent} {s : State}

theorem refuseRequest_effect (c : FaultCode) : RingEffect g s (refuseRequest c s) := .returned _ (.raised _ .keep)

/-- Before RB_INIT an operation raises its fault alone (R140). -/
theorem whenInitialised_effect {r : Result} {t : State} (h : s.rb.init = true → RingEffect g s t) :
    RingEffect g s (whenInitialised r s t) := by
  cases hi : s.rb.init with
  | true => rw [whenInitialised_init hi]; exact h hi
  | false => rw [whenInitialised_uninit hi]; exact .returned _ (.raised _ .keep)

theorem rbInit_effect (c : BitVec 16) : RingEffect (some .host) s (rbInit c s) := by
  unfold rbInit
  split
  · exact refuseRequest_effect _
  · exact .returned _ (.restart c rfl (by omega))

theorem queueBytes_effect (data : Bytes) (hi : s.rb.init = true) :
    RingEffect (some .producer) s (queueBytes data s) := by
  unfold queueBytes
  split
  · exact .returned _ .keep
  · split
    · exact .returned _ (.raised _ (.append data rfl hi))
    · exact .returned _ (.append data rfl hi)

theorem dequeueByte_effect : RingEffect (some .consumer) s (dequeueByte s) := by
  unfold dequeueByte
  split
  · exact .returned _ .keep
  · split
    · exact .returned _ (.raised _ .keep)
    · exact .returned _ (.moveRd _ rfl)

theorem setWriteIndex_effect (v : BitVec 16) : RingEffect (some .producer) s (setWriteIndex v s) := by
  have hmove : RingEffect (some .producer) s (setWr (v.toNat % capacity s) s) := .moveWr _ rfl
  unfold setWriteIndex
  split
  · exact .returned _ (.raised _ hmove)
  · split
    · exact .returned _ (.raised _ hmove)
    · exact .returned _ hmove

theorem incrementReadIndex_effect (n : BitVec 16) : RingEffect (some .consumer) s (incrementReadIndex n s) := by
  have hmove : RingEffect (some .consumer) s (setRd (advancedRd n s) s) := .moveRd _ rfl
  unfold incrementReadIndex
  split
  · exact .returned _ (.raised _ hmove)
  · exact .returned _ hmove

theorem arrayWrite_effect (i : BitVec 16) (data : Bytes) : RingEffect (some .producer) s (arrayWrite i data s) := by
  unfold arrayWrite
  split
  · exact refuseRequest_effect _
  · split
    · exact .returned _ (.raised _ .keep)
    · next b _ hlt =>
      have hplace : RingEffect (some .producer) s (placeByte i.toNat b s) := .place _ b rfl (by omega)
      split
      · exact .returned _ (.raised _ hplace)
      · exact .returned _ hplace

theorem arrayRead_effect (i : BitVec 16) : RingEffect g s (arrayRead i s) := by
  unfold arrayRead
  split
  · exact .returned _ (.raised _ .keep)
  · split
    · exact .returned _ (.raised _ .keep)
    · exact .returned _ .keep

end

/-! ### What an instruction can do -/

/-- The state after FR_POLL gave the byte `b` to the receiver in the receive state `st`, before a dispatch (R170). -/
abbrev afterReceive (st : RxState) (b : Byte) (s : State) : State := setFr (rxStepAt st b (pollBase s)).1.fr (pollBase s)

/-- Everything an instruction that answers a next state can do: an effect on the ring buffer, a frame handed to the
encoder (FR_SEND, DFU_STATE_CHECK), a frame's handler, or FR_POLL's receive step, with the handler of the frame it
completes. -/
inductive InstrEffect : Instr → State → State → Prop
  | ring {i : Instr} {s t : State} (h : RingEffect (owner i) s t) : InstrEffect i s t
  | emitted {i : Instr} {s : State} (r : Result) (cmd : Byte) (payload : Bytes) :
      InstrEffect i s (ret r (emit cmd payload s).2)
  | handled {s : State} (k : FrameClass) (cmd : Byte) (payload : Bytes) :
      InstrEffect (frameInstr k cmd payload) s (runHandler k cmd payload s)
  | received {s : State} {st : RxState} (b : Byte) (hst : rxStateAt s.fr.pos.toNat s.fr.len.toNat = some st) :
      InstrEffect .frPoll s (afterReceive st b s)
  | dispatched {s : State} {st : RxState} (b : Byte) (hst : rxStateAt s.fr.pos.toNat s.fr.len.toNat = some st)
      (k : FrameClass) (cmd : Byte) (payload : Bytes) :
      InstrEffect .frPoll s (runHandler k cmd payload (afterReceive st b s))

theorem frSend_effect (a : BitVec 16) (payload : Bytes) (s : State) :
    InstrEffect (.frSend a payload) s (frSend a payload s) := by
  unfold frSend
  split
  · exact .ring (refuseRequest_effect _)
  · exact .emitted _ _ _

/-- FR_POLL consumes a byte as an operation of CONSUMER (R153, R170). -/
theorem pollBase_effect (s : State) : RingEffect (some .consumer) s (pollBase s) := .returned _ (.moveRd _ rfl)

theorem exec_frPoll_effect {s t : State} (h : exec .frPoll s = .next t) : InstrEffect .frPoll s t := by
  obtain ⟨_, ⟨_, rfl⟩ | rfl | rfl | ⟨b, st, _, hst, hrx⟩⟩ := exec_frPoll_cases h
  · exact .ring (.returned _ (.raised _ .keep))
  · exact .ring (.returned _ .keep)
  · exact .ring (.returned _ (.raised _ .keep))
  · have hfr : (rxStepAt st b (pollBase s)).1 = afterReceive st b s := rxStepAt_frame _ _ _
    rw [hfr] at hrx
    obtain ⟨_, rfl⟩ | ⟨cmd, payload, _, rfl⟩ := hrx
    · exact .received b hst
    · exact .dispatched b hst _ cmd payload

/-- The inversion of `exec`. -/
theorem exec_effect {i : Instr} {s t : State} (h : exec i s = .next t) : InstrEffect i s t := by
  by_cases hf : isFrame i = true
  · obtain ⟨k, cmd, payload, rfl, _, rfl⟩ := exec_frame_next hf h
    exact .handled k cmd payload
  · cases i <;> first | exact absurd rfl hf | skip
    case frPoll => exact exec_frPoll_effect h
    all_goals obtain ⟨-, rfl⟩ := whenRunning_next h
    case rbInit c => exact .ring (rbInit_effect c)
    case rbIsEmpty => exact .ring (whenInitialised_effect fun _ => .returned _ .keep)
    case rbDataLen => exact .ring (whenInitialised_effect fun _ => .returned _ .keep)
    case rbQueueBytes data => exact .ring (whenInitialised_effect (queueBytes_effect data))
    case rbDequeueByte => exact .ring (whenInitialised_effect fun _ => dequeueByte_effect)
    case rbSetWriteIndex v => exact .ring (whenInitialised_effect fun _ => setWriteIndex_effect v)
    case rbIncrementReadIndex n => exact .ring (whenInitialised_effect fun _ => incrementReadIndex_effect n)
    case rbGetMaxContiguousSlice => exact .ring (whenInitialised_effect fun _ => .returned _ .keep)
    case rbArrayWrite a data => exact .ring (whenInitialised_effect fun _ => arrayWrite_effect a data)
    case rbArrayRead a => exact .ring (whenInitialised_effect fun _ => arrayRead_effect a)
    case frSend a payload => exact frSend_effect a payload s
    case dfuStateCheck => exact .emitted _ _ _
    case reservedD => exact .ring (refuseRequest_effect _)
    case reservedEF => exact .ring (refuseRequest_effect _)

end Sys2Proof.Machine
end

section
/-! SUPPORT. What every instruction leaves unchanged, how the fault set and `tx_log` grow, and the one way to halt. -/

namespace Sys2Proof.Machine

/-! ### The handlers that never halt (10_state.md R45) -/

/-- Only PAGE_STORE_REQ's handler commits (R79, R211). -/
theorem runHandler_running {k : FrameClass} (hk : k ≠ .pageStoreReq) (cmd : Byte) (payload : Bytes) (s : State) :
    (runHandler k cmd payload s).blk.halted = s.blk.halted ∧
      (runHandler k cmd payload s).logs.commit = s.logs.commit := by
  cases k with
  | initReq =>
    simp only [runHandler]
    unfold initReq handleInit acceptInit
    (repeat' split)
    · exact respond_halt _ _ (resetSession s)
    · exact respond_halt _ _ (resetSession s)
    · exact respond_halt _ _ (resetSession s)
    · exact respond_halt _ _ (openSession payload (eraseRegion (resetSession s)))
    · exact ⟨rfl, rfl⟩
  | statusReq =>
    obtain ⟨-, -, -, hcommit, hblk⟩ := emit_unchanged (s.cfg.cmd.code .statusResp) (statusPayload s) s
    exact ⟨congrArg Block.halted hblk, hcommit⟩
  | pageCreateReq =>
    simp only [runHandler, pageCreateReq, respond_eq, emitCancel_eq]
    (repeat' split) <;> exact ⟨rfl, rfl⟩
  | writeDataEvt =>
    simp only [runHandler, writeDataEvt, emitCancel_eq]
    (repeat' split) <;> exact ⟨rfl, rfl⟩
  | pageStoreReq => exact absurd rfl hk
  | stateCheckResp =>
    simp only [runHandler, stateCheckResp, emitCancel_eq]
    (repeat' split) <;> exact ⟨rfl, rfl⟩
  | cancelResp => exact ⟨rfl, rfl⟩
  | fwd => exact ⟨rfl, rfl⟩
  | ignore => exact ⟨rfl, rfl⟩

/-! ### The ring buffer under every instruction -/

/-- The ring buffer an instruction leaves is one its owner can leave: a handler and the encoder do not touch it, and the
receive step follows CONSUMER's move of the read cursor (R153, R170). -/
theorem InstrEffect.ringEffect {i : Instr} {s t : State} (h : InstrEffect i s t) :
    ∃ u, RingEffect (owner i) s u ∧ t.rb = u.rb := by
  cases h with
  | ring h => exact ⟨t, h, rfl⟩
  | emitted r cmd payload => exact ⟨s, .keep, (emit_frame cmd payload s).rb⟩
  | handled k cmd payload => exact ⟨s, .keep, (runHandler_frame k cmd payload s).rb⟩
  | received b => exact ⟨pollBase s, pollBase_effect s, rfl⟩
  | dispatched b _ k cmd payload => exact ⟨pollBase s, pollBase_effect s, (runHandler_frame k cmd payload _).rb⟩

/-! ### The frame of every instruction -/

/-- What holds of every instruction that answers a next state: the configuration stays (R30), no fault is removed (R46),
`tx_log` grows by whole frames (R47), and a halt is a commit of PAGE_STORE_REQ's handler (R45, R49). -/
structure InstrFrame (i : Instr) (s t : State) : Prop where
  cfg : t.cfg = s.cfg
  faults : ∀ c, hasFault s.blk.faults c = true → hasFault t.blk.faults c = true
  tx : ∃ frames, t.logs.tx = s.logs.tx ++ frames ∧
    ∀ f ∈ frames, ∃ cmd payload, payload.length ≤ Config.maxPayload ∧ f = wireFrame s.cfg cmd payload
  halt : (t.blk.halted = s.blk.halted ∧ t.logs.commit = s.logs.commit) ∨
    (t.blk.halted = true ∧ t.dfu = Session.initial ∧ (i = .frPoll ∨ ∃ p, i = .pageStoreReq p) ∧
      ∃ words, t.logs.commit = s.logs.commit ++ [words])

theorem RingEffect.instrFrame {g : Option Agent} {s t : State} (h : RingEffect g s t) (i : Instr) :
    InstrFrame i s t := by
  obtain ⟨hcfg, -, -, -, hlogs, hhalt⟩ := h.frame
  exact ⟨hcfg, h.faults_sticky, ⟨[], by simp [hlogs]⟩, .inl ⟨hhalt, by rw [hlogs]⟩⟩

/-- A handler's frame is an instruction's, given which instructions may run a handler that halts. -/
theorem HandlerFrame.instrFrame {i : Instr} {s t : State} (h : HandlerFrame s t)
    (hi : (t.blk.halted = s.blk.halted ∧ t.logs.commit = s.logs.commit) ∨ i = .frPoll ∨ ∃ p, i = .pageStoreReq p) :
    InstrFrame i s t := by
  refine ⟨h.cfg, fun c hc => by rw [h.faults]; exact hc, h.tx, ?_⟩
  rcases h.halt with hrun | ⟨hhalt, hdfu, hwords⟩
  · exact .inl hrun
  · exact hi.imp_right fun hi => ⟨hhalt, hdfu, hi, hwords⟩

theorem handled_instrFrame (k : FrameClass) (cmd : Byte) (payload : Bytes) (s : State) :
    InstrFrame (frameInstr k cmd payload) s (runHandler k cmd payload s) := by
  refine (runHandler_frame k cmd payload s).instrFrame ?_
  by_cases hk : k = .pageStoreReq
  · subst hk
    exact .inr (.inr ⟨payload, rfl⟩)
  · exact .inl (runHandler_running hk cmd payload s)

/-- The receive step changes none of the fields an instruction's frame speaks of. -/
theorem InstrFrame.of_afterReceive {s t : State} {st : RxState} {b : Byte} (h : InstrFrame .frPoll (afterReceive st b s) t) :
    InstrFrame .frPoll s t := ⟨h.cfg, h.faults, h.tx, h.halt⟩

theorem InstrEffect.instrFrame {i : Instr} {s t : State} (h : InstrEffect i s t) : InstrFrame i s t := by
  cases h with
  | ring h => exact h.instrFrame i
  | emitted r cmd payload =>
    obtain ⟨-, -, -, hcommit, hblk⟩ := emit_unchanged cmd payload s
    have h : InstrFrame i s (emit cmd payload s).2 :=
      (emit_frame cmd payload s).instrFrame (.inl ⟨congrArg Block.halted hblk, hcommit⟩)
    exact ⟨h.cfg, h.faults, h.tx, h.halt⟩
  | handled k cmd payload => exact handled_instrFrame k cmd payload s
  | received b => exact ⟨rfl, fun _ hc => hc, ⟨[], (List.append_nil _).symm, nofun⟩, .inl ⟨rfl, rfl⟩⟩
  | dispatched b _ k cmd payload =>
    exact .of_afterReceive ((runHandler_frame k cmd payload _).instrFrame (.inr (.inl rfl)))

theorem exec_instrFrame {i : Instr} {s t : State} (h : exec i s = .next t) : InstrFrame i s t :=
  (exec_effect h).instrFrame

end Sys2Proof.Machine
end

section
/-! The laws that follow from the frame of every instruction. -/

namespace Sys2Proof.Machine

/-- Settles O47: an instruction's frame keeps the configuration, and the external reset carries it over. -/
theorem configurationIsFixed : Obligations.ConfigurationIsFixed := by
  intro s t h
  obtain ⟨-, rfl⟩ | ⟨rest, -, rfl⟩ | ⟨r, rest, i, -, -, -, hexec⟩ := step_next_cases h
  · rfl
  · rfl
  · exact (exec_instrFrame hexec).cfg

/-- Settles O44, by the frame of every instruction. -/
theorem transmitLogGrowsByWholeFrames : Obligations.TransmitLogGrowsByWholeFrames :=
  fun _ _ _ h => (exec_instrFrame h).tx

/-- Settles O45: what does not halt left the block as it was, and that was running (R45). -/
theorem commitIsTheOnlyWayToHalt : Obligations.CommitIsTheOnlyWayToHalt := by
  intro i s t h
  have hrun : s.blk.halted = false := exec_next_running h
  exact (exec_instrFrame h).halt.imp_left fun ⟨hhalt, hcommit⟩ => ⟨hhalt.trans hrun, hcommit⟩

/-- A step but for the external reset removes no fault (R46). -/
theorem step_faults_sticky {s t : State} (h : step s = .next t) (hr : ∀ rest, s.inbox ≠ .reset :: rest)
    (c : FaultCode) (hc : hasFault s.blk.faults c = true) : hasFault t.blk.faults c = true := by
  obtain ⟨-, rfl⟩ | ⟨rest, hbox, -⟩ | ⟨r, rest, i, -, -, -, hexec⟩ := step_next_cases h
  · exact hc
  · exact absurd hbox (hr rest)
  · exact (exec_instrFrame hexec).faults c hc

/-- Settles O43. -/
theorem faultsAreStickyUntilReset : Obligations.FaultsAreStickyUntilReset := by
  refine ⟨fun c d s => ⟨hasFault_addFault _ c d, hasFault_addFault _ c d⟩, fun s t h hr => step_faults_sticky h hr,
    fun s rest hbox => ?_, fun s c hc hend => ?_⟩
  · exact ⟨externalReset { s with inbox := rest }, by simp only [step, fetch, hbox], hasFault_none⟩
  · rw [hend.2, hasFault_none] at hc
    cases hc

/-- Settles O16: what an instruction leaves of the ring buffer is its owner's effect on it. -/
theorem eachCursorHasOneWriter : Obligations.EachCursorHasOneWriter := by
  intro i s t h
  obtain ⟨u, hu, hrb⟩ := (exec_effect h).ringEffect
  refine ⟨fun hp => by rw [hrb, hu.producer_keeps_rd hp], fun hc => ?_⟩
  obtain ⟨hwr, hrba⟩ := hu.consumer_keeps_wr_rba hc
  exact ⟨by rw [hrb, hwr], fun a => by simp [State.cell, State.memory, hrb, hrba]⟩

/-- The slice's length with the cursors held modulo C (40_ring_buffer.md R148). -/
theorem sliceLength_le_occ {s : State} (h : CursorsOk s) : sliceLength s ≤ occ s := by
  obtain ⟨-, hw, hr⟩ := h
  unfold sliceLength occ
  rw [modSub_eq _ _ _ hw hr]
  split <;> omega

/-- Settles O12: the length fits its register, as it is at most the occupancy. -/
theorem rbSliceIsLongestUnwrappedRun : Obligations.RbSliceIsLongestUnwrappedRun := by
  intro s hrun
  refine ⟨fun hi hcur => ?_, fun hi => ?_⟩
  · have hle := sliceLength_le_occ hcur
    have hocc : occ s < capacity s := occ_lt (by have := hcur.1; omega)
    have hcap : capacity s < 2 ^ 16 := s.rb.cap.isLt
    have hlen : (BitVec.ofNat 16 (sliceLength s)).toNat = sliceLength s := by
      rw [BitVec.toNat_ofNat, Nat.mod_eq_of_lt (by omega)]
    refine ⟨BitVec.ofNat 16 (sliceLength s), ?_, fun h => ?_, fun h => ?_, by omega⟩
    · exact (whenRunning_running hrun _).trans (congrArg _ (whenInitialised_init hi _ _))
    · rw [hlen, sliceLength, if_pos h]
      omega
    · have hr : s.rb.rd.toNat < s.rb.cap.toNat := hcur.2.2
      rw [hlen, sliceLength, if_neg (by omega), capacity]
      omega
  · exact ⟨_, (whenRunning_running hrun _).trans (congrArg _ (whenInitialised_uninit hi _ _)), rfl, rfl⟩

end Sys2Proof.Machine
end

section
/-! SUPPORT. What a handler can do to the session and FLASH, said once (`SessionEffect`), and the invariant. -/

namespace Sys2Proof.Machine

/-! ### What a handler can do to the session (42_dfu_engine.md R203–R213) -/

/-- The effects a handler can have on the session and FLASH: none; a session closed (R203, R210–R213), opened (R203), given
a page (R205) or a chunk (R206); the bytes of a failed flash write (R208); a complete page written, after which the offset
is advanced or the session over (R208–R211). -/
inductive SessionEffect (s t : State) : Prop
  | kept (hd : t.dfu = s.dfu) (hf : t.flash = s.flash)
  | closed (hd : t.dfu = Session.initial) (hf : t.flash = s.flash)
  | opened (size : BitVec 32) (digest : Bytes) (hsize : size.toNat ≤ s.cfg.flashRegionSize) (hlen : digest.length = 32)
      (hd : t.dfu = { Session.initial with inProgress := true, firmwareSize := size, expectedSha256 := digest })
      (hf : t.flash = (eraseRegion s).flash)
  | pageOpened (size : BitVec 16) (hp : s.dfu.inProgress = true) (hsize : size.toNat ≤ Config.maxPage)
      (hd : t.dfu = { s.dfu with pageOffset := 0, pageSize := size }) (hf : t.flash = s.flash)
  | chunkAppended (chunk : Bytes) (hp : s.dfu.inProgress = true)
      (hfit : s.dfu.pageOffset.toNat + chunk.length ≤ s.dfu.pageSize.toNat)
      (hd : t.dfu = (appendChunk chunk s).dfu) (hf : t.flash = s.flash)
  | writeFailed (junk : Bytes) (hfit : s.dfu.firmwareOffset.toNat + junk.length ≤ s.cfg.flashRegionSize)
      (hd : t.dfu = s.dfu) (hf : t.flash = memWrite .flash s.flash s.dfu.firmwareOffset.toNat junk)
  | pageWritten (data : Bytes) (hp : s.dfu.inProgress = true) (hfull : s.dfu.pageOffset = s.dfu.pageSize)
      (ho : (drawFlash s.draws).1 = .ok) (hpage : s.dfu.pageOffset.toNat ≤ data.length)
      (hfit : s.dfu.firmwareOffset.toNat + data.length ≤ s.cfg.flashRegionSize)
      (hd : t.dfu = (advancePage s).dfu ∨ t.dfu = Session.initial)
      (hf : t.flash = memWrite .flash s.flash s.dfu.firmwareOffset.toNat data)

/-- The digest field of a payload long enough to carry it (30_encoding.md R120, R121). -/
theorem initDigest_length {payload : Bytes} (h : initWellFormed payload = true) : (initDigest payload).length = 32 := by
  have hlen : 37 ≤ payload.length := of_decide_eq_true (Bool.and_eq_true_iff.mp h).1
  simp only [initDigest, slice, List.length_reverse, List.length_take, List.length_drop]
  omega

theorem initReq_session (payload : Bytes) (s : State) : SessionEffect s (initReq payload s) := by
  unfold initReq handleInit acceptInit
  simp only [respond_eq]
  split
  · next hwf =>
    split
    · exact .closed rfl rfl
    · exact .closed rfl rfl
    · split
      · exact .closed rfl rfl
      · next hsize =>
        exact .opened (initSize payload) (initDigest payload) (Nat.le_of_not_lt hsize) (initDigest_length hwf) rfl rfl
  · exact .kept rfl rfl

theorem pageCreateReq_session (payload : Bytes) (s : State) : SessionEffect s (pageCreateReq payload s) := by
  unfold pageCreateReq
  simp only [respond_eq, emitCancel_eq]
  split
  · exact .kept rfl rfl
  · next req _ =>
    split
    · exact .kept rfl rfl
    · next hp =>
      split
      · exact .kept rfl rfl
      · next hsize =>
        refine .pageOpened (BitVec.ofNat 16 req.toNat) (by simpa using hp) ?_ rfl rfl
        exact (Nat.mod_le _ _).trans (Nat.le_of_not_lt hsize)

theorem writeDataEvt_session (payload : Bytes) (s : State) : SessionEffect s (writeDataEvt payload s) := by
  unfold writeDataEvt
  simp only [emitCancel_eq]
  split
  · exact .kept rfl rfl
  · next chunk _ =>
    split
    · exact .kept rfl rfl
    · next hp =>
      split
      · next hfit => exact .chunkAppended chunk (by simpa using hp) hfit rfl rfl
      · exact .kept rfl rfl

/-- After a successful write the session goes on or is over, and FLASH is kept (R209–R211). -/
theorem afterPageWrite_session (s : State) :
    ((afterPageWrite s).dfu = s.dfu ∨ (afterPageWrite s).dfu = Session.initial) ∧ (afterPageWrite s).flash = s.flash := by
  unfold afterPageWrite verifyImage
  simp only [respond_eq, commitImage]
  split
  · split
    · exact ⟨.inr rfl, rfl⟩
    · exact ⟨.inr rfl, rfl⟩
  · exact ⟨.inl rfl, rfl⟩

/-- The page's address less `FLASH_BASE` (R74, R208). -/
theorem pageAddress_offset (s : State) : pageAddress s - s.cfg.flashBase.toNat = s.dfu.firmwareOffset.toNat :=
  Nat.add_sub_cancel_left _ _

/-- The page has `page_offset` bytes (R73). -/
theorem pageBytes_length (s : State) : (pageBytes s).length = s.dfu.pageOffset.toNat := memBytes_length _ _ _ _ _

/-- An admitted page lies, padded, inside the flash region (R77). -/
theorem page_fits {s : State} (h : flashAdmits s.cfg (pageAddress s) (pageBytes s).length = true) :
    s.dfu.firmwareOffset.toNat + paddedLength s.cfg (pageBytes s).length ≤ s.cfg.flashRegionSize := by
  have hfit := of_decide_eq_true (Bool.and_eq_true_iff.mp h).2
  rwa [pageAddress_offset] at hfit

theorem storePage_session {s : State} (hv : s.cfg.Valid) (hp : s.dfu.inProgress = true)
    (hfull : s.dfu.pageOffset = s.dfu.pageSize) : SessionEffect s (storePage s) := by
  unfold storePage
  cases ha : flashAdmits s.cfg (pageAddress s) (pageBytes s).length with
  | false =>
    rw [flashWrite_rejected ha]
    simp only [respond_eq]
    exact .kept rfl rfl
  | true =>
    have hfit := page_fits ha
    cases ho : (drawFlash s.draws).1 with
    | fail =>
      rw [flashWrite_fail ha ho, pageAddress_offset]
      simp only [respond_eq]
      exact .writeFailed _ (by rwa [drawJunk_length]) rfl rfl
    | ok =>
      rw [flashWrite_ok ha ho, pageAddress_offset]
      obtain ⟨hdfu, hflash⟩ := afterPageWrite_session (advancePage (setFlash (memWrite .flash s.flash
        s.dfu.firmwareOffset.toNat (paddedData s.cfg (pageBytes s))) (setDraws (drawFlash s.draws).2 s)))
      have hlen := paddedData_length s.cfg (pageBytes s) hv.wordBytes_pos
      have hle := le_paddedLength s.cfg (pageBytes s).length hv.wordBytes_pos
      rw [← hlen] at hle hfit
      rw [pageBytes_length] at hle
      exact .pageWritten _ hp hfull ho hle hfit hdfu hflash

theorem pageStoreReq_session {s : State} (hv : s.cfg.Valid) : SessionEffect s (pageStoreReq s) := by
  unfold pageStoreReq
  simp only [respond_eq, emitCancel_eq]
  split
  · exact .kept rfl rfl
  · next hp =>
    split
    · exact .kept rfl rfl
    · split
      · exact .kept rfl rfl
      · next hfull => exact storePage_session hv (by simpa using hp) (Decidable.not_not.mp hfull)

theorem stateCheckResp_session (payload : Bytes) (s : State) : SessionEffect s (stateCheckResp payload s) := by
  unfold stateCheckResp
  simp only [emitCancel_eq]
  split
  · exact .kept rfl rfl
  · split
    · exact .kept rfl rfl
    · exact .kept rfl rfl

theorem runHandler_session (k : FrameClass) (cmd : Byte) (payload : Bytes) {s : State} (hv : s.cfg.Valid) :
    SessionEffect s (runHandler k cmd payload s) := by
  cases k with
  | initReq => exact initReq_session payload s
  | statusReq =>
    obtain ⟨hdfu, hflash, -⟩ := emit_unchanged (s.cfg.cmd.code .statusResp) (statusPayload s) s
    exact .kept hdfu hflash
  | pageCreateReq => exact pageCreateReq_session payload s
  | writeDataEvt => exact writeDataEvt_session payload s
  | pageStoreReq => exact pageStoreReq_session hv
  | stateCheckResp => exact stateCheckResp_session payload s
  | cancelResp => exact .closed rfl rfl
  | fwd => exact .kept rfl rfl
  | ignore => exact .kept rfl rfl

/-! ### The parts of the invariant speak of their own registers -/

theorem RingOk.congr {s t : State} (h : RingOk s) (hrb : t.rb = s.rb) : RingOk t := by
  cases s; cases t; cases hrb; exact h

theorem ReceiverOk.congr {s t : State} (h : ReceiverOk s) (hfr : t.fr = s.fr) : ReceiverOk t := by
  cases s; cases t; cases hfr; exact h

theorem SessionOk.congr {s t : State} (h : SessionOk s) (hcfg : t.cfg = s.cfg) (hdfu : t.dfu = s.dfu) :
    SessionOk t := by
  cases s; cases t; cases hcfg; cases hdfu; exact h

theorem FlashOk.congr {s t : State} (h : FlashOk s) (hcfg : t.cfg = s.cfg) (hflash : t.flash = s.flash) :
    FlashOk t := by
  cases s; cases t; cases hcfg; cases hflash; exact h

/-! ### The session and FLASH under a handler (10_state.md R43, 20_memory.md R70, R74) -/

/-- The reset session meets its invariant under every configuration. -/
theorem initial_sessionOk {t : State} (hd : t.dfu = Session.initial) : SessionOk t := by
  simp only [SessionOk, hd]
  exact ⟨⟨by decide, by decide⟩, fun _ => trivial, rfl, ⟨nil_wf _, fun _ h => nomatch h⟩, Nat.zero_le _, Nat.zero_le _⟩

/-- The offset after a page that lies inside the region does not wrap (R9, R208). -/
theorem advancePage_offset {s : State} (hv : s.cfg.Valid) {n : Nat} (hpage : s.dfu.pageOffset.toNat ≤ n)
    (hfit : s.dfu.firmwareOffset.toNat + n ≤ s.cfg.flashRegionSize) :
    (advancePage s).dfu.firmwareOffset.toNat = s.dfu.firmwareOffset.toNat + s.dfu.pageOffset.toNat := by
  have hregion := hv.region_fits
  show (BitVec.ofNat 32 _).toNat = _
  rw [BitVec.toNat_ofNat, Nat.mod_eq_of_lt (by omega)]

/-- The page offset after a chunk that fits the page does not wrap (R206). -/
theorem appendChunk_offset {chunk : Bytes} {s : State}
    (hfit : s.dfu.pageOffset.toNat + chunk.length ≤ s.dfu.pageSize.toNat) :
    (appendChunk chunk s).dfu.pageOffset.toNat = s.dfu.pageOffset.toNat + chunk.length := by
  have hsize := s.dfu.pageSize.isLt
  show (BitVec.ofNat 16 _).toNat = _
  rw [BitVec.toNat_ofNat, Nat.mod_eq_of_lt (by omega)]

/-- A write that ends below a bound keeps a memory canonical and below that bound. -/
theorem memWrite_bounded {sp : Space} {m : Memory} {a n : Nat} {bs : Bytes}
    (h : Memory.wf sp m ∧ ∀ c ∈ m, c.1 < n) (hfit : a + bs.length ≤ n) :
    Memory.wf sp (memWrite sp m a bs) ∧ ∀ c ∈ memWrite sp m a bs, c.1 < n := by
  refine ⟨memWrite_wf _ _ _ _ h.1, fun c hc => ?_⟩
  rcases mem_memWrite hc with hc | ⟨-, hub⟩
  · exact h.2 c hc
  · omega

theorem SessionEffect.sessionOk {s t : State} (h : SessionEffect s t) (hcfg : t.cfg = s.cfg) (hv : s.cfg.Valid)
    (hs : SessionOk s) : SessionOk t := by
  cases h with
  | kept hd => exact hs.congr hcfg hd
  | closed hd => exact initial_sessionOk hd
  | opened size digest hsize hlen hd =>
    simp only [SessionOk, hd, hcfg]
    exact ⟨⟨by decide, by decide⟩, nofun, hlen, ⟨nil_wf _, fun _ h => nomatch h⟩, hsize, Nat.zero_le _⟩
  | pageOpened size hp hsize hd =>
    obtain ⟨-, -, hdigest, hpbuf, hregion⟩ := hs
    simp only [SessionOk, hd, hcfg]
    exact ⟨⟨Nat.zero_le _, hsize⟩, fun h => absurd (hp.symm.trans h) nofun, hdigest, hpbuf, hregion⟩
  | chunkAppended chunk hp hfit hd =>
    obtain ⟨⟨-, hmax⟩, -, hdigest, hpbuf, hregion⟩ := hs
    simp only [SessionOk, hd, hcfg, appendChunk_offset hfit]
    exact ⟨⟨hfit, hmax⟩, fun h => absurd (hp.symm.trans h) nofun, hdigest,
      memWrite_bounded hpbuf (hfit.trans hmax), hregion⟩
  | writeFailed junk _ hd => exact hs.congr hcfg hd
  | pageWritten data hp _ _ hpage hfit hd =>
    obtain ⟨-, -, hdigest, hpbuf, hsize, -⟩ := hs
    rcases hd with hd | hd
    · simp only [SessionOk, hd, hcfg, advancePage_offset hv hpage hfit]
      exact ⟨⟨Nat.le_refl _, Nat.zero_le _⟩, fun h => absurd (hp.symm.trans h) nofun, hdigest, hpbuf, hsize, by omega⟩
    · exact initial_sessionOk hd

theorem SessionEffect.flashOk {s t : State} (h : SessionEffect s t) (hcfg : t.cfg = s.cfg) (hs : FlashOk s) :
    FlashOk t := by
  have of_write : ∀ {a : Nat} {bs : Bytes}, a + bs.length ≤ s.cfg.flashRegionSize →
      t.flash = memWrite .flash s.flash a bs → FlashOk t := by
    intro a bs hfit hf
    simp only [FlashOk, hf, hcfg]
    exact memWrite_bounded hs hfit
  cases h with
  | kept _ hf => exact hs.congr hcfg hf
  | closed _ hf => exact hs.congr hcfg hf
  | opened _ _ _ _ _ hf => exact of_write (by simp) hf
  | pageOpened _ _ _ _ hf => exact hs.congr hcfg hf
  | chunkAppended _ _ _ _ hf => exact hs.congr hcfg hf
  | writeFailed junk hfit _ hf => exact of_write hfit hf
  | pageWritten data _ _ _ _ hfit _ hf => exact of_write hfit hf

/-- What a handler can do to `firmware_offset` (R219). -/
theorem SessionEffect.firmwareOffset {s t : State} (h : SessionEffect s t) (hv : s.cfg.Valid) :
    t.dfu.firmwareOffset = s.dfu.firmwareOffset ∨
    t.dfu = { t.dfu with firmwareOffset := 0, pageOffset := 0, pageSize := 0 } ∨
    (s.dfu.inProgress = true ∧ s.dfu.pageOffset = s.dfu.pageSize ∧ (drawFlash s.draws).1 = .ok ∧
      t.dfu.firmwareOffset.toNat = s.dfu.firmwareOffset.toNat + s.dfu.pageOffset.toNat) := by
  cases h with
  | kept hd => exact .inl (by rw [hd])
  | closed hd => exact .inr (.inl (by rw [hd]; rfl))
  | opened _ _ _ _ hd => exact .inr (.inl (by rw [hd]; rfl))
  | pageOpened _ _ _ hd => exact .inl (by rw [hd])
  | chunkAppended _ _ _ hd => exact .inl (by rw [hd]; rfl)
  | writeFailed _ _ hd => exact .inl (by rw [hd])
  | pageWritten _ hp hfull ho hpage hfit hd =>
    rcases hd with hd | hd
    · exact .inr (.inr ⟨hp, hfull, ho, by rw [hd, advancePage_offset hv hpage hfit]⟩)
    · exact .inr (.inl (by rw [hd]; rfl))

/-! ### The receiver under the receive step (10_state.md R37, R38; 20_memory.md R72) -/

theorem rxStateAt_waitPayload {pos len : Nat} (h : rxStateAt pos len = some .waitPayload) : 4 ≤ pos ∧ pos < 4 + len := by
  unfold rxStateAt at h
  (repeat' split at h) <;> simp at h
  omega

theorem rxStateAt_waitCrcLow {pos len : Nat} (h : rxStateAt pos len = some .waitCrcLow) : pos = 4 + len := by
  unfold rxStateAt at h
  (repeat' split at h) <;> simp at h
  assumption

/-- A position within a frame moves by one without wrapping. -/
theorem pos_succ_toNat {s : State} (h : s.fr.pos.toNat < 255) : (s.fr.pos + 1).toNat = s.fr.pos.toNat + 1 := by
  rw [BitVec.toNat_add_of_lt (by simpa using (by omega : s.fr.pos.toNat + 1 < 256))]
  rfl

/-- A receiver at or before a frame's first payload byte owes no written cell. -/
theorem receiverOk_before_payload {s : State} (h : ReceiverOk s) {f : Receiver} (hrxp : f.rxp = s.fr.rxp)
    (hlen : f.len.toNat ≤ Config.maxPayload) (hpos : f.pos.toNat ≤ 4) : ReceiverOk (setFr f s) := by
  obtain ⟨-, -, hwf, hin, -⟩ := h
  simp only [ReceiverOk, setFr_fr, hrxp]
  exact ⟨hlen, by omega, hwf, hin, fun j _ hj => by omega⟩

/-- A payload byte stored at its index (R175): that cell is written, the cells before it were. -/
theorem storePayload_receiverOk (b : Byte) {s : State} (h : ReceiverOk s) (h4 : 4 ≤ s.fr.pos.toNat)
    (hlt : s.fr.pos.toNat < 4 + s.fr.len.toNat) :
    ReceiverOk (setFr { s.fr with
      rxp := memWrite .rxp s.fr.rxp (s.fr.pos.toNat - 4) [b], pos := s.fr.pos + 1 } s) := by
  obtain ⟨hlen, -, hwf, hin, hcells⟩ := h
  have hmax : s.fr.len.toNat ≤ 127 := hlen
  obtain ⟨hwf', hin'⟩ : Memory.wf .rxp (memWrite .rxp s.fr.rxp (s.fr.pos.toNat - 4) [b]) ∧ _ :=
    memWrite_bounded (n := Config.rxpSize) ⟨hwf, hin⟩
      (by show s.fr.pos.toNat - 4 + 1 ≤ 127; omega)
  simp only [ReceiverOk, setFr_fr, pos_succ_toNat (s := s) (by omega)]
  refine ⟨hlen, by omega, hwf', hin', fun j hj hjpos => ?_⟩
  show memRead .rxp (memWrite .rxp s.fr.rxp (s.fr.pos.toNat - 4) [b]) j ≠ none
  rw [memRead_memWrite_one]
  split
  · exact nofun
  · exact hcells j hj (by omega)

theorem rxMismatch_receiverOk (b : Byte) {s : State} (h : ReceiverOk s) : ReceiverOk (rxMismatch b s) := by
  unfold rxMismatch
  split
  · exact receiverOk_before_payload h rfl h.1 (by simp)
  · exact receiverOk_before_payload h rfl h.1 (by simp)

theorem rxStepAt_receiverOk {st : RxState} (b : Byte) {s : State} (h : ReceiverOk s)
    (hst : rxStateAt s.fr.pos.toNat s.fr.len.toNat = some st) : ReceiverOk (rxStepAt st b s).1 := by
  have hlen : s.fr.len.toNat ≤ Config.maxPayload := h.1
  cases st with
  | waitPreamble1 =>
    simp only [rxStepAt]
    split
    · exact receiverOk_before_payload h rfl hlen (by simp)
    · exact receiverOk_before_payload h rfl hlen (by simp)
  | waitPreamble2 =>
    simp only [rxStepAt]
    split
    · exact receiverOk_before_payload h rfl hlen (by simp)
    · exact rxMismatch_receiverOk b h
  | waitLength =>
    simp only [rxStepAt]
    split
    · next hb => exact receiverOk_before_payload h rfl hb (by simp)
    · exact rxMismatch_receiverOk b h
  | waitCommand => exact receiverOk_before_payload h rfl hlen (by simp)
  | waitPayload =>
    obtain ⟨h4, hlt⟩ := rxStateAt_waitPayload hst
    exact storePayload_receiverOk b h h4 hlt
  | waitCrcLow =>
    have hpos := rxStateAt_waitCrcLow hst
    have hmax : s.fr.len.toNat ≤ 127 := hlen
    obtain ⟨-, -, hwf, hin, hcells⟩ := h
    simp only [rxStepAt, ReceiverOk, setFr_fr, pos_succ_toNat (s := s) (by omega)]
    exact ⟨hlen, by omega, hwf, hin, fun j hj _ => hcells j hj (by omega)⟩
  | waitCrcHigh => exact receiverOk_before_payload h rfl hlen (Nat.zero_le _)

/-! ### Every instruction keeps each part of the invariant -/

theorem afterReceive_receiverOk {st : RxState} (b : Byte) {s : State} (h : ReceiverOk s)
    (hst : rxStateAt s.fr.pos.toNat s.fr.len.toNat = some st) : ReceiverOk (afterReceive st b s) :=
  (rxStepAt_receiverOk b (h.congr (t := pollBase s) rfl) hst).congr rfl

theorem InstrEffect.receiverOk {i : Instr} {s t : State} (h : InstrEffect i s t) (hs : ReceiverOk s) :
    ReceiverOk t := by
  cases h with
  | ring h =>
    obtain ⟨-, hfr, -⟩ := h.frame
    exact hs.congr hfr
  | emitted r cmd payload => exact hs.congr (emit_frame cmd payload s).fr
  | handled k cmd payload => exact hs.congr (runHandler_frame k cmd payload s).fr
  | received b hst => exact afterReceive_receiverOk b hs hst
  | dispatched b hst k cmd payload => exact (afterReceive_receiverOk b hs hst).congr (runHandler_frame k cmd payload _).fr

/-- The receive step touches neither the session, FLASH nor the draws. -/
theorem SessionEffect.of_afterReceive {s t : State} {st : RxState} {b : Byte} (h : SessionEffect (afterReceive st b s) t) :
    SessionEffect s t := by
  cases h with
  | kept hd hf => exact .kept hd hf
  | closed hd hf => exact .closed hd hf
  | opened size digest hsize hlen hd hf => exact .opened size digest hsize hlen hd hf
  | pageOpened size hp hsize hd hf => exact .pageOpened size hp hsize hd hf
  | chunkAppended chunk hp hfit hd hf => exact .chunkAppended chunk hp hfit hd hf
  | writeFailed junk hfit hd hf => exact .writeFailed junk hfit hd hf
  | pageWritten data hp hfull ho hpage hfit hd hf => exact .pageWritten data hp hfull ho hpage hfit hd hf

theorem InstrEffect.sessionEffect {i : Instr} {s t : State} (h : InstrEffect i s t) (hv : s.cfg.Valid) :
    SessionEffect s t := by
  cases h with
  | ring h =>
    obtain ⟨-, -, hdfu, hflash, -⟩ := h.frame
    exact .kept hdfu hflash
  | emitted r cmd payload =>
    obtain ⟨hdfu, hflash, -⟩ := emit_unchanged cmd payload s
    exact .kept hdfu hflash
  | handled k cmd payload => exact runHandler_session k cmd payload hv
  | received b => exact .kept rfl rfl
  | @dispatched _ st b _ k cmd payload =>
    have hcfg : (afterReceive st b s).cfg = s.cfg := rfl
    exact .of_afterReceive (runHandler_session k cmd payload (by rwa [hcfg]))

/-- A commit is recorded exactly with the halt (R49). -/
theorem InstrFrame.commitOk {i : Instr} {s t : State} (h : InstrFrame i s t) (hrun : Running s) (hs : CommitOk s) :
    CommitOk t := by
  have hs : s.logs.commit.length = 0 := by simpa [CommitOk, hrun] using hs
  rcases h.halt with ⟨hhalt, hcommit⟩ | ⟨hhalt, -, -, words, hcommit⟩
  · simp [CommitOk, hhalt, hrun, hcommit, hs]
  · simp [CommitOk, hhalt, hcommit, hs]

/-- Every instruction keeps the invariant. -/
theorem exec_inv {i : Instr} {s t : State} (h : exec i s = .next t) (hs : Inv s) : Inv t := by
  obtain ⟨hv, hring, hfr, hdfu, hflash, hcommit⟩ := hs
  have heff := exec_effect h
  have hframe := heff.instrFrame
  have hses := heff.sessionEffect hv
  obtain ⟨u, hu, hrb⟩ := heff.ringEffect
  exact ⟨by rw [hframe.cfg]; exact hv, (hu.ringOk hring).congr hrb, heff.receiverOk hfr, hses.sessionOk hframe.cfg hv hdfu,
    hses.flashOk hframe.cfg hflash, hframe.commitOk (exec_next_running h) hcommit⟩

/-- The external reset gives every register its reset value and keeps FLASH (R280). -/
theorem externalReset_inv {s : State} (hs : Inv s) : Inv (externalReset s) := by
  obtain ⟨hv, -, -, -, hflash, -⟩ := hs
  refine ⟨hv, ⟨nofun, nil_wf _, fun _ h => nomatch h⟩, ?_, initial_sessionOk rfl, hflash, rfl⟩
  exact ⟨Nat.zero_le _, Nat.zero_le _, nil_wf _, fun _ h => (nomatch h), fun _ hj => absurd hj (Nat.not_lt_zero _)⟩

/-- FR_POLL completes where the position is within R37's states. -/
theorem exec_frPoll_completes {s : State} (hrun : Running s) (hpos : s.fr.pos.toNat ≤ 5 + s.fr.len.toNat) :
    ∃ t, exec .frPoll s = .next t := by
  have hexec : exec .frPoll s = poll s := if_neg (by simp [hrun])
  rw [hexec]
  unfold poll
  split
  · exact ⟨_, rfl⟩
  · split
    · exact ⟨_, rfl⟩
    · split
      · exact ⟨_, rfl⟩
      · next b _ =>
        obtain ⟨st, hst⟩ := rxStateAt_some _ _ hpos
        have hrx : rxState (pollBase s) = some st := hst
        exact ⟨finishPoll (rxStepAt st b (pollBase s)), by rw [pollByte, rxStep, hrx]⟩

end Sys2Proof.Machine
end

section
/-! The laws that follow from the session's effects and the invariant. -/

namespace Sys2Proof.Machine

/-- Settles O54: a step is nothing, the external reset, or an instruction, whose meaning does not see the inbox. -/
theorem everyStepKeepsInv : Obligations.EveryStepKeepsInv := by
  intro s t hs h
  obtain ⟨-, rfl⟩ | ⟨rest, -, rfl⟩ | ⟨r, rest, i, -, -, -, hexec⟩ := step_next_cases h
  · exact hs
  · exact externalReset_inv (s := { s with inbox := rest }) hs
  · exact exec_inv (s := { s with inbox := rest }) hexec hs

/-- Settles O41, by what an instruction can do to the session. -/
theorem firmwareOffsetAdvancesOnlyByWrittenPages : Obligations.FirmwareOffsetAdvancesOnlyByWrittenPages := by
  intro i s t ⟨hv, _⟩ h
  exact ((exec_effect h).sessionEffect hv).firmwareOffset hv

/-- Settles O55: FR_POLL needs a receive state, which the invariant gives; every other instruction needs a running block
alone. -/
theorem everyEnabledOperationCompletes : Obligations.EveryEnabledOperationCompletes := by
  intro i s ⟨_, _, ⟨_, hpos, _⟩, _⟩ hrun
  cases i
  case frPoll => exact exec_frPoll_completes hrun hpos
  all_goals exact ⟨_, whenRunning_running hrun _⟩

end Sys2Proof.Machine
end

section
/-! A page stored: the successful write of a complete page into FLASH (20_memory.md R77, 42_dfu_engine.md R207–R209). -/

namespace Sys2Proof.Machine

/-- A complete page passes PAGE_STORE_REQ's entry checks (R207). -/
theorem pageStoreReq_complete {s : State} (hp : s.dfu.inProgress = true) (hne : s.dfu.pageOffset ≠ 0)
    (hfull : s.dfu.pageOffset = s.dfu.pageSize) : pageStoreReq s = storePage s := by
  rw [pageStoreReq, if_neg (by simp [hp]), if_neg hne, if_neg (not_not.mpr hfull)]

/-- The open page is what PBUF holds up to `page_offset` (R73). -/
theorem pageBytes_eq {s : State} {page : Bytes} (hl : page.length = s.dfu.pageOffset.toNat) (h : Holds s .pbuf 0 page) :
    pageBytes s = page := by
  unfold pageBytes
  rw [← hl]
  exact memBytes_eq _ _ _ _ _ h

/-- The flash layer admits a page that starts on a word and lies, padded, inside the region (R77). -/
theorem flashAdmits_pageAddress (s : State) (n : Nat) :
    flashAdmits s.cfg (pageAddress s) n = true ↔
      (s.cfg.flashBase.toNat + s.dfu.firmwareOffset.toNat) % s.cfg.flashWordBytes = 0 ∧
      s.dfu.firmwareOffset.toNat + paddedLength s.cfg n ≤ s.cfg.flashRegionSize := by
  rw [flashAdmits, Bool.and_eq_true_iff, decide_eq_true_iff, decide_eq_true_iff, pageAddress_offset, pageAddress]

/-- The state after a page's accepted write, before the image is looked at (R208). -/
def pageStored (page : Bytes) (s : State) : State :=
  advancePage (setFlash (memWrite .flash s.flash s.dfu.firmwareOffset.toNat (paddedData s.cfg page))
    (setDraws (drawFlash s.draws).2 s))

/-- An admitted page whose draw is `ok` is laid at `firmware_offset` (R208). -/
theorem storePage_ok {s : State} (ha : flashAdmits s.cfg (pageAddress s) (pageBytes s).length = true)
    (ho : (drawFlash s.draws).1 = .ok) : storePage s = afterPageWrite (pageStored (pageBytes s) s) := by
  rw [storePage, flashWrite_ok ha ho, pageAddress_offset, pageStored]

/-- The page stored moves `firmware_offset` past it (R208). -/
theorem pageStored_offset {s : State} (hv : s.cfg.Valid) {page : Bytes} (hl : page.length = s.dfu.pageOffset.toNat)
    (hfit : s.dfu.firmwareOffset.toNat + paddedLength s.cfg page.length ≤ s.cfg.flashRegionSize) :
    (pageStored page s).dfu.firmwareOffset.toNat = s.dfu.firmwareOffset.toNat + page.length := by
  have hle := le_paddedLength s.cfg page.length hv.wordBytes_pos
  rw [hl] at hle ⊢
  rw [hl] at hfit
  exact advancePage_offset (s := setFlash _ (setDraws _ s)) hv hle hfit

/-- FLASH holds the page stored at the old `firmware_offset` (R77). -/
theorem pageStored_holds {s : State} (hv : s.cfg.Valid) (page : Bytes) :
    Holds (pageStored page s) .flash s.dfu.firmwareOffset.toNat page := by
  intro k hk
  refine (memRead_paddedData s.cfg hv.wordBytes_pos s.flash _ page _).trans ?_
  rw [dif_pos (by omega)]
  simp

/-- The rest of the page's last word is padded (R77). -/
theorem pageStored_padding {s : State} (hv : s.cfg.Valid) {page : Bytes} {i : Nat}
    (h1 : s.dfu.firmwareOffset.toNat + page.length ≤ i)
    (h2 : i < s.dfu.firmwareOffset.toNat + paddedLength s.cfg page.length) :
    (pageStored page s).cell .flash i = some s.cfg.erasedValue := by
  refine (memRead_paddedData s.cfg hv.wordBytes_pos s.flash _ page i).trans ?_
  rw [dif_neg (by omega), if_pos (by omega)]

/-- No other byte of FLASH changes (R77). -/
theorem pageStored_outside {s : State} (hv : s.cfg.Valid) {page : Bytes} {i : Nat}
    (h : i < s.dfu.firmwareOffset.toNat ∨ s.dfu.firmwareOffset.toNat + paddedLength s.cfg page.length ≤ i) :
    (pageStored page s).cell .flash i = s.cell .flash i := by
  refine memRead_memWrite_outside _ _ _ _ _ ?_
  rwa [paddedData_length s.cfg page hv.wordBytes_pos]

/-- A page that does not complete the image is answered SUCCESS (R209). -/
theorem afterPageWrite_incomplete {s : State} (h : s.dfu.firmwareOffset ≠ s.dfu.firmwareSize) :
    afterPageWrite s = transmit [responseFrame s.cfg .pageStoreResp .success] s := by
  rw [afterPageWrite, if_neg h, respond_eq]

/-- Settles O35: the state answered is the page stored, with SUCCESS handed over. -/
theorem pageStoreWritesPageAndAdvances : Obligations.PageStoreWritesPageAndAdvances := by
  intro p page s hrun hv hp hne hfull hl hpage w off padded halign hfit ho hinc
  have hpb : pageBytes s = page := pageBytes_eq hl hpage
  have hoff : (pageStored page s).dfu.firmwareOffset.toNat = off + page.length := pageStored_offset hv hl hfit
  have hincomplete : (pageStored page s).dfu.firmwareOffset ≠ (pageStored page s).dfu.firmwareSize := fun h =>
    hinc (hoff.symm.trans (congrArg BitVec.toNat h))
  have hstore : pageStoreReq s = transmit [responseFrame s.cfg .pageStoreResp .success] (pageStored page s) := by
    have hadmit := (flashAdmits_pageAddress s (pageBytes s).length).mpr ⟨halign, by rwa [hpb]⟩
    rw [pageStoreReq_complete hp hne hfull, storePage_ok hadmit ho, hpb, afterPageWrite_incomplete hincomplete]
    rfl
  exact ⟨_, (whenRunning_running hrun _).trans (congrArg _ hstore), rfl, hoff, pageStored_holds hv page,
    fun _ h1 h2 => pageStored_padding hv h1 h2, fun _ h => pageStored_outside hv h⟩

end Sys2Proof.Machine
end

section
/-! Port requests: the refused ones (30_encoding.md R103, 60_exceptions.md R261), and the words of the selector map
(R101, R102). -/

namespace Sys2Proof.Machine

/-- A refusal in a running block completes with the fault bit and nothing else (R261). -/
theorem exec_refused {i : Instr} {c : FaultCode} {s : State} (hrun : Running s)
    (h : exec i s = whenRunning s (refuseRequest c s)) : ∃ t, exec i s = .next t ∧ OnlyFault c s t :=
  ⟨_, h.trans (whenRunning_running hrun _), rfl⟩

/-- RB_ARRAY_WRITE's data is out of range unless it is one byte (R102). -/
theorem arrayWriteByte_eq_none {data : Bytes} (h : data.length ≠ 1) : arrayWriteByte data = none := by
  unfold arrayWriteByte
  split
  · simp at h
  · rfl

/-- The selectors from 0xD on are the reserved ones (R101). -/
theorem selectPort_reserved {w : BitVec 20} (h : 0xD ≤ requestOp w) (data : Bytes) :
    selectPort w data = .reservedD ∨ ∃ odd, selectPort w data = .reservedEF odd := by
  have hlt : requestOp w < 16 := (w.extractLsb' 16 4).isLt
  obtain h | h | h : requestOp w = 13 ∨ requestOp w = 14 ∨ requestOp w = 15 := by omega
  · exact .inl (by simp only [selectPort, h])
  · exact .inr ⟨false, by simp only [selectPort, h]⟩
  · exact .inr ⟨true, by simp only [selectPort, h]⟩

/-- Settles O3: neither meaning looks at the ring buffer. -/
theorem reservedSelectorsCompleteAsRefused : Obligations.ReservedSelectorsCompleteAsRefused :=
  fun _ _ hrun => ⟨exec_refused hrun rfl, exec_refused hrun rfl⟩

/-- Settles O2: each of these requests is answered by `refuseRequest`. -/
theorem refusedRequestsOnlySetTheirFaultBit : Obligations.RefusedRequestsOnlySetTheirFaultBit := by
  intro s hrun
  refine ⟨fun w data hlen hop => ?_, fun c hc => ?_, fun a data hinit hdata => ?_, fun a payload ha => ?_⟩
  · refine ⟨selectPort w data, ?_⟩
    obtain ⟨t, hnext, hfault⟩ : ∃ t, exec (selectPort w data) s = .next t ∧ OnlyFault .refusedOpcode s t := by
      obtain hsel | ⟨odd, hsel⟩ := selectPort_reserved hop data
      · rw [hsel]
        exact exec_refused hrun rfl
      · rw [hsel]
        exact exec_refused hrun rfl
    exact ⟨t, if_pos hlen, hnext, hfault⟩
  · have hrefused : rbInit c s = refuseRequest .refusedOperand s := if_pos hc
    exact exec_refused hrun (congrArg (whenRunning s) hrefused)
  · have hrefused : arrayWrite a data s = refuseRequest .refusedOperand s := by
      rw [arrayWrite, arrayWriteByte_eq_none hdata]
    exact exec_refused hrun (congrArg (whenRunning s) ((whenInitialised_init hinit _ _).trans hrefused))
  · have hrefused : frSend a payload s = refuseRequest .refusedOperand s := by
      rw [frSend, sendCommand, if_neg ha]
    exact exec_refused hrun (congrArg (whenRunning s) hrefused)

/-- Settles O57: the selector and the operand of each word, computed. -/
theorem requestWordsDecode : Obligations.RequestWordsDecode := ⟨rfl, rfl, rfl, rfl, rfl, rfl, rfl⟩

end Sys2Proof.Machine
end

section
/-! The decoder: port requests and frames decode to the instruction they were encoded from (30_encoding.md R100–R115). -/

namespace Sys2Proof.Machine

/-! ### Port requests (R100–R102) -/

/-- An instruction encoded as a port request is the one its word and data select. -/
theorem selectPort_of_encode {p : Params} {i : Instr} {w : BitVec 20} {data : Bytes}
    (h : encode p i = .port w data) : selectPort w data = i := by
  cases i <;> cases h
  case reservedEF odd => cases odd <;> simp [selectPort]
  all_goals simp [selectPort]

theorem dataFits_of_encode {p : Params} {i : Instr} {w : BitVec 20} {data : Bytes}
    (hwf : wellFormed p i = true) (h : encode p i = .port w data) : dataFits data = true := by
  cases i <;> cases h
  case rbQueueBytes => exact hwf
  case rbArrayWrite => exact hwf
  case frSend => exact hwf
  all_goals rfl

/-! ### Frames (R110–R115) -/

/-- A frame of a command and a payload, whatever its two CRC bytes (R110). -/
def frameWithCrc (cmd : Byte) (payload : Bytes) (lo hi : Byte) : Bytes :=
  [Config.preamble1, Config.preamble2, BitVec.ofNat 8 payload.length, cmd] ++ payload ++ [lo, hi]

/-- The frame of R110 has the CRC of R111. -/
theorem wireFrame_eq_frameWithCrc (p : Params) (cmd : Byte) (payload : Bytes) :
    wireFrame p cmd payload = frameWithCrc cmd payload ((p.crc16 (crcInput cmd payload)).extractLsb' 0 8)
      ((p.crc16 (crcInput cmd payload)).extractLsb' 8 8) := rfl

/-- The length byte holds the length of a payload that fits (R112). -/
theorem lengthByte_toNat {payload : Bytes} (h : payload.length ≤ Config.maxPayload) :
    (BitVec.ofNat 8 payload.length).toNat = payload.length :=
  Nat.mod_eq_of_lt (Nat.lt_of_le_of_lt h (by decide))

theorem decode_buildFrame (p : Params) (cmd : Byte) {payload : Bytes} (h : payloadFits payload = true) :
    decode p (.frame (buildFrame p cmd payload)) = .ok (selectFrame p cmd payload) := by
  have hfits : payload.length ≤ Config.maxPayload := of_decide_eq_true h
  have hframe : decodeFrame p (buildFrame p cmd payload) = .ok (selectFrame p cmd payload, []) := by
    rw [buildFrame_eq, wireFrame_eq_frameWithCrc]
    simp [frameWithCrc, decodeFrame, lengthByte_toNat hfits, hfits, decodeBody, byteAt, ofLe16_halves]
  rw [decode, hframe]

/-- An instruction encoded as a frame is the one its command and payload select, under a valid configuration. -/
theorem selectFrame_of_encode {p : Params} (hvalid : p.Valid) {i : Instr} {bs : Bytes} (hwf : wellFormed p i = true)
    (h : encode p i = .frame bs) :
    ∃ cmd payload, payloadFits payload = true ∧ bs = buildFrame p cmd payload ∧ selectFrame p cmd payload = i := by
  obtain ⟨hinit, hstatus, hcreate, hwrite, hstore, hcheck, hcancel⟩ := classify_code hvalid
  cases i <;> cases h
  case initReq pl => exact ⟨_, pl, hwf, rfl, congrArg (frameInstr · _ pl) hinit⟩
  case statusReq pl => exact ⟨_, pl, hwf, rfl, congrArg (frameInstr · _ pl) hstatus⟩
  case pageCreateReq pl => exact ⟨_, pl, hwf, rfl, congrArg (frameInstr · _ pl) hcreate⟩
  case writeDataEvt pl => exact ⟨_, pl, hwf, rfl, congrArg (frameInstr · _ pl) hwrite⟩
  case pageStoreReq pl => exact ⟨_, pl, hwf, rfl, congrArg (frameInstr · _ pl) hstore⟩
  case stateCheckResp pl => exact ⟨_, pl, hwf, rfl, congrArg (frameInstr · _ pl) hcheck⟩
  case cancelResp pl => exact ⟨_, pl, hwf, rfl, congrArg (frameInstr · _ pl) hcancel⟩
  case fwd cmd pl =>
    obtain ⟨hfits, hmem⟩ := Bool.and_eq_true_iff.mp hwf
    exact ⟨cmd, pl, hfits, rfl, congrArg (frameInstr · cmd pl) (classify_forwarded hvalid (of_decide_eq_true hmem))⟩
  case ignore cmd pl =>
    obtain ⟨hrest, hfwd⟩ := Bool.and_eq_true_iff.mp hwf
    obtain ⟨hfits, hcode⟩ := Bool.and_eq_true_iff.mp hrest
    exact ⟨cmd, pl, hfits, rfl,
      congrArg (frameInstr · cmd pl) (classify_other (of_decide_eq_true hcode) (of_decide_eq_true hfwd))⟩

/-- Settles O56: an encoding is a port request or a frame, and each decodes to what it selects. -/
theorem decodeOfEncodeIsIdentity : Obligations.DecodeOfEncodeIsIdentity := by
  intro p i hvalid hwf
  cases he : encode p i with
  | port w data =>
    have hfits : data.length ≤ Config.maxData := of_decide_eq_true (dataFits_of_encode hwf he)
    exact (if_pos hfits).trans (congrArg Except.ok (selectPort_of_encode he))
  | frame bs =>
    obtain ⟨cmd, payload, hfits, rfl, hsel⟩ := selectFrame_of_encode hvalid hwf he
    rw [decode_buildFrame p cmd hfits, hsel]

end Sys2Proof.Machine
end

section
/-! The receiver: a whole frame from position 0, with its own CRC (41_frame_codec.md R186) and with one bit flipped
(R187). -/

namespace Sys2Proof.Machine

/-! ### Bytes received in order -/

theorem receiveAll_cons {b : Byte} {bs : Bytes} {r : Option (Byte × Bytes)} {rs : List (Option (Byte × Bytes))}
    {s t u : State} (hb : rxStep b s = some (t, r)) (hbs : receiveAll bs t = some (rs, u)) :
    receiveAll (b :: bs) s = some (r :: rs, u) := by
  simp [receiveAll, hb, hbs]

theorem receiveAll_append {xs ys : Bytes} {rs qs : List (Option (Byte × Bytes))} {s t u : State}
    (hx : receiveAll xs s = some (rs, t)) (hy : receiveAll ys t = some (qs, u)) :
    receiveAll (xs ++ ys) s = some (rs ++ qs, u) := by
  induction xs generalizing s rs with
  | nil =>
    cases hx
    exact hy
  | cons b bs ih =>
    rw [receiveAll] at hx
    split at hx
    · cases hx
    · next r hr =>
      split at hx
      · cases hx
      · next q hq =>
        cases hx
        exact receiveAll_cons hr (ih hq)

/-- The receive step at a position that has a receive state. -/
theorem rxStep_eq {st : RxState} {s : State} (b : Byte) (h : rxStateAt s.fr.pos.toNat s.fr.len.toNat = some st) :
    rxStep b s = some (rxStepAt st b s) := by
  have hst : rxState s = some st := h
  rw [rxStep, hst]

/-! ### A frame byte by byte (R171–R177) -/

/-- The receiver in a frame of `cmd` with `n` payload bytes, when it holds the first of them, `pre` (R37, R72). -/
structure Collected (n : Nat) (cmd : Byte) (pre : Bytes) (f : Receiver) : Prop where
  len : f.len = BitVec.ofNat 8 n
  cmd : f.cmd = cmd
  pos : f.pos.toNat = 4 + pre.length
  held : ∀ (k : Nat) (h : k < pre.length), memRead .rxp f.rxp k = some pre[k]

/-- Preamble, length and command (R171–R174). -/
theorem receive_header {n : Nat} (cmd : Byte) {s : State} (hn : n ≤ Config.maxPayload) (hpos : s.fr.pos = 0) :
    ∃ f, receiveAll [Config.preamble1, Config.preamble2, BitVec.ofNat 8 n, cmd] s =
      some (List.replicate 4 none, setFr f s) ∧ Collected n cmd [] f := by
  have hlen : (BitVec.ofNat 8 n).toNat ≤ Config.maxPayload := Nat.le_trans (Nat.mod_le _ _) hn
  have h1 : rxStep Config.preamble1 s = some (setFr { s.fr with pos := 1 } s, none) :=
    rxStep_eq (st := .waitPreamble1) _ (by rw [hpos]; rfl)
  have h2 : rxStep (BitVec.ofNat 8 n) (setFr { s.fr with pos := 2 } s) =
      some (setFr { s.fr with len := BitVec.ofNat 8 n, pos := 3 } s, none) := by
    rw [rxStep_eq (st := .waitLength) _ rfl, rxStepAt, if_pos hlen]
    rfl
  exact ⟨{ s.fr with len := BitVec.ofNat 8 n, cmd := cmd, pos := 4 },
    receiveAll_cons h1 (receiveAll_cons rfl (receiveAll_cons h2 (receiveAll_cons rfl rfl))),
    rfl, rfl, rfl, fun k h => nomatch h⟩

/-- A payload byte (R175). -/
theorem rxStep_payload {n : Nat} {cmd : Byte} {pre : Bytes} (b : Byte) {s : State} (hn : n ≤ Config.maxPayload)
    (h : Collected n cmd pre s.fr) (hlt : pre.length < n) :
    ∃ f, rxStep b s = some (setFr f s, none) ∧ Collected n cmd (pre ++ [b]) f := by
  obtain ⟨hlen, hcmd, hpos, hheld⟩ := h
  have hmax : n ≤ 127 := hn
  have hst : rxStateAt s.fr.pos.toNat s.fr.len.toNat = some .waitPayload := by
    rw [hlen, hpos, BitVec.toNat_ofNat]
    exact rxStateAt_payload _ _ (by omega) (by omega)
  have hidx : s.fr.pos.toNat - 4 = pre.length := by omega
  refine ⟨_, rxStep_eq b hst, hlen, hcmd, ?_, fun k hk => ?_⟩
  · rw [pos_succ_toNat (by omega), hpos, List.length_append]
    rfl
  · rw [List.length_append, List.length_singleton] at hk
    rw [memRead_memWrite_one, hidx]
    split
    · next he =>
      subst he
      simp
    · rw [hheld k (by omega), List.getElem_append_left]

theorem receive_payload {n : Nat} {cmd : Byte} {pre : Bytes} (bs : Bytes) {s : State} (hn : n ≤ Config.maxPayload)
    (h : Collected n cmd pre s.fr) (hle : pre.length + bs.length ≤ n) :
    ∃ f, receiveAll bs s = some (List.replicate bs.length none, setFr f s) ∧ Collected n cmd (pre ++ bs) f := by
  induction bs generalizing pre s with
  | nil => exact ⟨s.fr, rfl, by rwa [List.append_nil]⟩
  | cons b bs ih =>
    rw [List.length_cons] at hle
    obtain ⟨f, hb, hf⟩ := rxStep_payload b hn h (by omega)
    obtain ⟨g, hbs, hg⟩ := ih (s := setFr f s) hf (by rw [List.length_append, List.length_singleton]; omega)
    exact ⟨g, receiveAll_cons hb hbs, by rwa [List.append_cons]⟩

/-- What the two CRC bytes make of a frame: delivered where they are its CRC, else dropped (R177). -/
def delivered (p : Params) (cmd : Byte) (payload : Bytes) (lo hi : Byte) : Option (Byte × Bytes) :=
  if ofLe16 lo hi = p.crc16 (crcInput cmd payload) then some (cmd, payload) else none

/-- The last byte of a frame (R177). -/
theorem rxStep_crcHigh {cmd : Byte} {payload : Bytes} (hi : Byte) {s : State}
    (hlen : s.fr.len = BitVec.ofNat 8 payload.length) (hcmd : s.fr.cmd = cmd) (hpl : rxPayload s = payload)
    (hpos : s.fr.pos.toNat = 5 + s.fr.len.toNat) :
    rxStep hi s = some (setFr { s.fr with pos := 0 } s, delivered s.cfg cmd payload s.fr.crcLo hi) := by
  have hmatch : crcMatches hi s = decide (ofLe16 s.fr.crcLo hi = s.cfg.crc16 (crcInput cmd payload)) := by
    rw [crcMatches, hlen, hcmd, hpl, crcInput]
  rw [rxStep_eq hi (hpos ▸ rxStateAt_crcHigh _), rxStepAt, hmatch, hcmd, hpl]
  simp only [decide_eq_true_eq, delivered]

/-- The two CRC bytes (R176, R177). -/
theorem receive_crc {cmd : Byte} {payload : Bytes} (lo hi : Byte) {s : State}
    (hn : payload.length ≤ Config.maxPayload) (h : Collected payload.length cmd payload s.fr) :
    ∃ f, receiveAll [lo, hi] s = some ([none, delivered s.cfg cmd payload lo hi], setFr f s) ∧ f.pos = 0 := by
  obtain ⟨hlen, hcmd, hpos, hheld⟩ := h
  have hmax : payload.length ≤ 127 := hn
  have hl : s.fr.len.toNat = payload.length := by rw [hlen, lengthByte_toNat hn]
  have hlow : rxStep lo s = some (setFr { s.fr with crcLo := lo, pos := s.fr.pos + 1 } s, none) :=
    rxStep_eq lo (by rw [hpos, hl, rxStateAt_crcLow])
  have hpos' : (s.fr.pos + 1).toNat = 5 + s.fr.len.toNat := by
    rw [pos_succ_toNat (by omega)]
    omega
  have hpl : rxPayload s = payload := rxPayload_eq hl.symm (fun k hk => by rw [Nat.zero_add]; exact hheld k hk)
  exact ⟨_, receiveAll_cons hlow (receiveAll_cons (rxStep_crcHigh hi hlen hcmd hpl hpos') rfl), rfl⟩

/-- From position 0 a frame with any CRC bytes gives nothing until its last byte, which delivers or drops it. -/
theorem receive_frameWithCrc (cmd : Byte) (payload : Bytes) (lo hi : Byte) {s : State}
    (hn : payload.length ≤ Config.maxPayload) (hpos : s.fr.pos = 0) :
    ∃ t, receiveAll (frameWithCrc cmd payload lo hi) s =
        some (List.replicate (payload.length + 5) none ++ [delivered s.cfg cmd payload lo hi], t) ∧
      t.fr.pos = 0 ∧ t = { s with fr := t.fr } := by
  obtain ⟨f, hheader, hf⟩ := receive_header cmd hn hpos
  obtain ⟨g, hpayload, hg⟩ := receive_payload payload (s := setFr f s) hn hf (by simp)
  obtain ⟨e, hcrc, he⟩ := receive_crc lo hi (s := setFr g s) hn hg
  refine ⟨setFr e s, (receiveAll_append (receiveAll_append hheader hpayload) hcrc).trans ?_, he, rfl⟩
  rw [List.append_cons _ none, ← List.replicate_one, List.replicate_append_replicate, List.replicate_append_replicate,
    show 4 + payload.length + 1 = payload.length + 5 by omega]
  rfl

/-- Settles O22: the CRC bytes of an encoded frame are its CRC. -/
theorem receiverRoundTrip : Obligations.ReceiverRoundTrip := by
  intro cmd payload s hn hpos
  rw [wireFrame_eq_frameWithCrc]
  obtain ⟨t, hrun, ht⟩ := receive_frameWithCrc cmd payload _ _ hn hpos
  rw [delivered, if_pos (ofLe16_halves _)] at hrun
  exact ⟨t, hrun, ht⟩

/-! ### One bit flipped (R187) -/

/-- A byte string of a frame's length that opens as one (R171–R173) is a frame with some command, payload and CRC. -/
theorem exists_frameWithCrc {n : Nat} {bs : Bytes} (hlen : bs.length = n + 6)
    (hhead : bs.take 3 = [Config.preamble1, Config.preamble2, BitVec.ofNat 8 n]) :
    ∃ cmd payload lo hi, payload.length = n ∧ bs = frameWithCrc cmd payload lo hi := by
  have hbody : (bs.drop 3).length = (n + 2) + 1 := by rw [List.length_drop]; omega
  obtain ⟨cmd, rest, hdrop⟩ := List.exists_cons_of_length_eq_add_one hbody
  have hrest : rest.length = n + 2 := by simpa [hdrop] using hbody
  obtain ⟨lo, hi, hcrc⟩ := List.length_eq_two.mp (show (rest.drop n).length = 2 by rw [List.length_drop]; omega)
  have hpayload : (rest.take n).length = n := List.length_take_of_le (by omega)
  refine ⟨cmd, rest.take n, lo, hi, hpayload, ?_⟩
  rw [frameWithCrc, hpayload, ← hcrc, List.append_assoc, List.take_append_drop, ← List.take_append_drop 3 bs, hhead,
    hdrop]
  rfl

theorem flipBit_wireFrame {k : Nat} (p : Params) (cmd : Byte) (payload : Bytes) (h : 24 ≤ k) :
    ∃ cmd' payload' lo hi, payload'.length = payload.length ∧
      flipBit k (wireFrame p cmd payload) = frameWithCrc cmd' payload' lo hi := by
  apply exists_frameWithCrc
  · simp [flipBit, wireFrame]
  · rw [flipBit, List.take_set_of_le (by omega)]
    rfl

/-- Bytes 2 to 3 + L of a frame are what its CRC covers (R111). -/
theorem slice_frameWithCrc (cmd : Byte) (payload : Bytes) (lo hi : Byte) :
    slice (frameWithCrc cmd payload lo hi) 2 (4 + payload.length) = crcInput cmd payload := by
  show (crcInput cmd payload ++ [lo, hi]).take (4 + payload.length - 2) = _
  rw [List.take_left' (by simp [crcInput]; omega)]

theorem byteAt_frameWithCrc (cmd : Byte) (payload : Bytes) (lo hi : Byte) :
    byteAt (frameWithCrc cmd payload lo hi) (4 + payload.length) = lo ∧
      byteAt (frameWithCrc cmd payload lo hi) (5 + payload.length) = hi := by
  constructor
  · rw [Nat.add_comm]
    simp [byteAt, frameWithCrc]
  · rw [show 5 + payload.length = payload.length + 1 + 4 by omega]
    simp [byteAt, frameWithCrc]

theorem delivered_eq_none_iff (p : Params) (cmd : Byte) (payload : Bytes) (lo hi : Byte) :
    delivered p cmd payload lo hi = none ↔
      (p.crc16 (crcInput cmd payload)).toNat ≠ lo.toNat + 256 * hi.toNat := by
  rw [← ofLe16_toNat, ne_eq, BitVec.toNat_inj, delivered]
  simp [eq_comm]

/-- Settles O23: the flip leaves the preamble and the length, so what is received is again a frame, with some command,
payload and CRC bytes. -/
theorem bitFlipAfterLengthDroppedIffCrcDiffers : Obligations.BitFlipAfterLengthDroppedIffCrcDiffers := by
  intro cmd payload k s hn hpos hk _
  obtain ⟨cmd', payload', lo, hi, hlen, hflip⟩ := flipBit_wireFrame s.cfg cmd payload hk
  obtain ⟨t, hrun, ht, -⟩ := receive_frameWithCrc cmd' payload' lo hi (hlen ▸ hn) hpos
  obtain ⟨hlo, hhi⟩ := byteAt_frameWithCrc cmd' payload' lo hi
  rw [hflip, ← hlen]
  refine ⟨_, t, hrun, ht, ?_⟩
  rw [slice_frameWithCrc, hlo, hhi, delivered_eq_none_iff]

end Sys2Proof.Machine
end

section
/-! SUPPORT. The ring-buffer operations (40_ring_buffer.md R140–R150): the gate of R140, each operation's next state said
once, and the unread bytes after an append and after a byte taken. -/

namespace Sys2Proof.Machine

/-! ### The gate of R140 -/

/-- The operations with a neutral result are the ones R140 gates by `rb.init`. -/
theorem exec_gated {i : Instr} {r : Result} (h : neutralResult i = some r) (s : State) :
    ∃ t, exec i s = whenRunning s (whenInitialised r s t) := by
  cases i <;> cases h <;> exact ⟨_, rfl⟩

theorem exec_uninitialised {i : Instr} {r : Result} (h : neutralResult i = some r) {s : State} (hrun : Running s)
    (hi : s.rb.init = false) : exec i s = .next (ret r (raiseFault .rbNotInitialised s)) := by
  obtain ⟨t, ht⟩ := exec_gated h s
  rw [ht, whenRunning_running hrun, whenInitialised_uninit hi]

/-- A gated operation in a running, initialised block. -/
theorem gate_open {s : State} (hrun : Running s) (hi : s.rb.init = true) {r : Result} {t u : State} (h : t = u) :
    whenRunning s (whenInitialised r s t) = .next u := by
  rw [whenRunning_running hrun, whenInitialised_init hi, h]

/-! ### Each operation's next state -/

theorem rbInit_accepted {c : BitVec 16} (h : 2 ≤ c.toNat) (s : State) :
    rbInit c s = ret .nothing { s with rb := { init := true, cap := c, wr := 0, rd := 0, rba := [] } } :=
  if_neg (by omega)

theorem exec_rbInit {c : BitVec 16} (h : 2 ≤ c.toNat) {s : State} (hrun : Running s) :
    exec (.rbInit c) s =
      .next { s with rb := { init := true, cap := c, wr := 0, rd := 0, rba := [] }, result := .nothing } :=
  (whenRunning_running hrun _).trans (congrArg _ (rbInit_accepted h s))

theorem queueBytes_rejected {data : Bytes} {s : State} (h : limit s < data.length + occ s) :
    queueBytes data s = ret (.bool false) s := if_pos h

/-- The fault set after an accepted RB_QUEUE_BYTES (R144). -/
def queueFaults (data : Bytes) (s : State) : FaultBits :=
  if s.cfg.fullMode = .verbatim ∧ data.length + occ s = capacity s then addFault .rbFullAmbiguous s.blk.faults
  else s.blk.faults

theorem queueBytes_accepted {data : Bytes} {s : State} (h : data.length + occ s ≤ limit s) :
    queueBytes data s =
      ret (.bool true) { appendBytes data s with blk := { s.blk with faults := queueFaults data s } } := by
  rw [queueBytes, if_neg (by omega), queueFaults]
  split <;> rfl

theorem dequeueByte_empty {s : State} (h : s.rb.wr = s.rb.rd) : dequeueByte s = ret (.optByte none) s :=
  if_pos (decide_eq_true h)

theorem dequeueByte_unwritten {s : State} (h : s.rb.wr ≠ s.rb.rd) (hcell : s.cell .rba s.rb.rd.toNat = none) :
    dequeueByte s = ret (.optByte none) (raiseFault .rbUnwrittenRead s) := by
  rw [dequeueByte, if_neg (by simpa [isEmpty] using h), hcell]

theorem dequeueByte_written {s : State} {b : Byte} (h : s.rb.wr ≠ s.rb.rd)
    (hcell : s.cell .rba s.rb.rd.toNat = some b) : dequeueByte s = ret (.optByte (some b)) (advanceRd s) := by
  rw [dequeueByte, if_neg (by simpa [isEmpty] using h), hcell]

/-- The fault set after RB_SET_WRITE_INDEX (R146). -/
def publishFaults (v : BitVec 16) (s : State) : FaultBits :=
  if limit s < occ s + published v s then addFault .rbProducerOverrun s.blk.faults
  else if s.cfg.fullMode = .verbatim ∧ occ s + published v s = capacity s then addFault .rbFullAmbiguous s.blk.faults
  else s.blk.faults

theorem setWriteIndex_eq (v : BitVec 16) (s : State) :
    setWriteIndex v s =
      ret .nothing { setWr (v.toNat % capacity s) s with blk := { s.blk with faults := publishFaults v s } } := by
  rw [setWriteIndex, publishFaults]
  split
  · rfl
  · split <;> rfl

/-- The fault set after RB_INCREMENT_READ_INDEX (R147). -/
def advanceFaults (n : BitVec 16) (s : State) : FaultBits :=
  if occ s < n.toNat then addFault .rbConsumerOveradvance s.blk.faults else s.blk.faults

theorem incrementReadIndex_eq (n : BitVec 16) (s : State) :
    incrementReadIndex n s =
      ret .nothing { setRd (advancedRd n s) s with blk := { s.blk with faults := advanceFaults n s } } := by
  rw [incrementReadIndex, advanceFaults]
  split <;> rfl

theorem arrayWrite_refused (i : BitVec 16) {data : Bytes} (h : data.length ≠ 1) (s : State) :
    arrayWrite i data s = refuseRequest .refusedOperand s := by
  rw [arrayWrite, arrayWriteByte_eq_none h]

theorem arrayWrite_badIndex {i : BitVec 16} {s : State} (h : capacity s ≤ i.toNat) (b : Byte) :
    arrayWrite i [b] s = ret .nothing (raiseFault .rbBadIndex s) := if_pos h

/-- The fault set after RB_ARRAY_WRITE of an index below C (R149). -/
def placeFaults (i : Nat) (s : State) : FaultBits :=
  if occupied s i then addFault .rbProducerOverrun s.blk.faults else s.blk.faults

theorem arrayWrite_placed {i : BitVec 16} {s : State} (h : i.toNat < capacity s) (b : Byte) :
    arrayWrite i [b] s =
      ret .nothing { placeByte i.toNat b s with blk := { s.blk with faults := placeFaults i.toNat s } } := by
  simp only [arrayWrite, arrayWriteByte]
  rw [if_neg (by omega), placeFaults]
  split <;> rfl

/-- The overrun condition as R149 writes it. -/
theorem placeFaults_eq (i : Nat) {s : State} (hc : 0 < capacity s) :
    placeFaults i s =
      if ((i : Int) - s.rb.rd.toNat) % (capacity s : Int) < (occ s : Int) then
        addFault .rbProducerOverrun s.blk.faults
      else s.blk.faults := by
  simp only [placeFaults, occupied, decide_eq_true_eq, ← modSub_cast _ _ _ hc, Int.ofNat_lt]

theorem arrayRead_badIndex {i : BitVec 16} {s : State} (h : capacity s ≤ i.toNat) :
    arrayRead i s = ret (.byte 0) (raiseFault .rbBadIndex s) := if_pos h

theorem arrayRead_unwritten {i : BitVec 16} {s : State} (h : i.toNat < capacity s)
    (hcell : s.cell .rba i.toNat = none) : arrayRead i s = ret (.byte 0) (raiseFault .rbUnwrittenRead s) := by
  rw [arrayRead, if_neg (by omega), hcell]

theorem arrayRead_written {i : BitVec 16} {b : Byte} {s : State} (h : i.toNat < capacity s)
    (hcell : s.cell .rba i.toNat = some b) : arrayRead i s = ret (.byte b) s := by
  rw [arrayRead, if_neg (by omega), hcell]

/-! ### Cells after a write -/

theorem cell_appendBytes_outside {data : Bytes} {s : State} {x : Nat}
    (h : ∀ k < data.length, x ≠ (s.rb.wr.toNat + k) % capacity s) :
    (appendBytes data s).cell .rba x = s.cell .rba x :=
  memRead_writeWrapped_outside _ _ _ _ _ h

theorem cell_appendBytes_inside {data : Bytes} {s : State} (hc : data.length ≤ capacity s) {k : Nat}
    (h : k < data.length) : (appendBytes data s).cell .rba ((s.rb.wr.toNat + k) % capacity s) = some data[k] :=
  memRead_writeWrapped_inside _ _ _ _ hc _ h

theorem cell_placeByte (i : Nat) (b : Byte) (s : State) (x : Nat) :
    (placeByte i b s).cell .rba x = if x = i then some b else s.cell .rba x :=
  memRead_memWrite_one _ _ _ _ _

/-! ### The occupancy and the unread bytes (10_state.md R35, R36) -/

theorem capacity_pos {s : State} (h : CursorsOk s) : 0 < capacity s := Nat.lt_of_lt_of_le Nat.two_pos h.1

theorem modSub_add_mod {r n c : Nat} (hr : r < c) (hn : n < c) : modSub ((r + n) % c) r c = n := by
  rw [modSub_eq _ _ _ (Nat.mod_lt _ (by omega)) hr, add_mod_eq r n c hr (by omega)]
  split <;> split <;> omega

/-- The write cursor lies the occupancy beyond the read cursor. -/
theorem rd_add_occ {s : State} (h : CursorsOk s) : (s.rb.rd.toNat + occ s) % capacity s = s.rb.wr.toNat := by
  obtain ⟨_, hw, hr⟩ := h
  rw [occ, add_mod_eq _ _ _ hr (modSub_lt _ _ _ (by omega)).le, modSub_eq _ _ _ hw hr]
  split <;> split <;> omega

theorem occ_eq_zero_iff {s : State} (h : CursorsOk s) : occ s = 0 ↔ s.rb.wr = s.rb.rd := by
  obtain ⟨_, hw, hr⟩ := h
  rw [occ, modSub_eq _ _ _ hw hr, ← BitVec.toNat_inj]
  split <;> omega

/-- The occupancy is what carries the read cursor to the write cursor. -/
theorem occ_eq_of_wr {s : State} (h : CursorsOk s) {n : Nat} (hn : n < capacity s)
    (hwr : s.rb.wr.toNat = (s.rb.rd.toNat + n) % capacity s) : occ s = n := by
  rw [occ, hwr, modSub_add_mod h.2.2 hn]

@[simp] theorem capacity_appendBytes (data : Bytes) (s : State) : capacity (appendBytes data s) = capacity s := rfl

@[simp] theorem appendBytes_rd (data : Bytes) (s : State) : (appendBytes data s).rb.rd = s.rb.rd := rfl

theorem appendBytes_cursorsOk (data : Bytes) {s : State} (h : CursorsOk s) : CursorsOk (appendBytes data s) :=
  setWr_cursorsOk _ h

theorem appendBytes_wr (data : Bytes) {s : State} (h : 0 < capacity s) :
    (appendBytes data s).rb.wr.toNat = (s.rb.wr.toNat + data.length % capacity s) % capacity s :=
  toNat_ofNat_mod_capacity _ h

theorem occ_appendBytes {data : Bytes} {s : State} (h : CursorsOk s) (hfit : data.length + occ s < capacity s) :
    occ (appendBytes data s) = occ s + data.length := by
  refine occ_eq_of_wr (appendBytes_cursorsOk data h) (by rw [Nat.add_comm]; exact hfit) ?_
  rw [appendBytes_wr data (capacity_pos h), Nat.add_mod_mod, ← rd_add_occ h, Nat.mod_add_mod, Nat.add_assoc]
  rfl

/-- An append short of the capacity puts its bytes after the unread ones (R144). -/
theorem unread_appendBytes {data : Bytes} {s : State} (h : CursorsOk s) (hfit : data.length + occ s < capacity s) :
    unread (appendBytes data s) = unread s ++ data.map some := by
  have hold : ∀ k < occ s, (appendBytes data s).cell .rba ((s.rb.rd.toNat + k) % capacity s) =
      s.cell .rba ((s.rb.rd.toNat + k) % capacity s) := fun k hk =>
    cell_appendBytes_outside fun j hj he => by
      rw [← rd_add_occ h, Nat.mod_add_mod, Nat.add_assoc] at he
      have := add_mod_inj _ _ _ _ (by omega) (by omega) he
      omega
  have hnew : ∀ k (hk : k < data.length),
      (appendBytes data s).cell .rba ((s.rb.rd.toNat + (occ s + k)) % capacity s) = some data[k] := fun k hk => by
    rw [← cell_appendBytes_inside (s := s) (by omega) hk, ← rd_add_occ h, Nat.mod_add_mod, Nat.add_assoc]
  rw [unread, occ_appendBytes h hfit, List.range_add, List.map_append, unread]
  congr 1
  · exact List.map_congr_left fun k hk => hold k (List.mem_range.mp hk)
  · rw [appendBytes_rd, capacity_appendBytes]
    refine List.ext_getElem (by simp) fun k hk _ => ?_
    simp only [List.length_map, List.length_range] at hk
    simpa using hnew k hk

@[simp] theorem capacity_advanceRd (s : State) : capacity (advanceRd s) = capacity s := rfl

theorem advanceRd_cursorsOk {s : State} (h : CursorsOk s) : CursorsOk (advanceRd s) := setRd_cursorsOk _ h

theorem advanceRd_rd {s : State} (h : 0 < capacity s) :
    (advanceRd s).rb.rd.toNat = (s.rb.rd.toNat + 1) % capacity s := toNat_ofNat_mod_capacity _ h

theorem occ_advanceRd {s : State} (h : CursorsOk s) {n : Nat} (hocc : occ s = n + 1) : occ (advanceRd s) = n := by
  have hlt : occ s < capacity s := occ_lt (capacity_pos h)
  refine occ_eq_of_wr (advanceRd_cursorsOk h) (show n < capacity s by omega) ?_
  rw [advanceRd_rd (by omega), capacity_advanceRd, Nat.mod_add_mod, Nat.add_assoc, Nat.add_comm 1, ← hocc, rd_add_occ h]
  rfl

/-- The first unread byte is the one at the read cursor, the others those unread after it is taken (R145). -/
theorem unread_advanceRd {s : State} (h : CursorsOk s) (hne : s.rb.wr ≠ s.rb.rd) :
    unread s = s.cell .rba s.rb.rd.toNat :: unread (advanceRd s) := by
  obtain ⟨n, hn⟩ := Nat.exists_eq_succ_of_ne_zero (mt (occ_eq_zero_iff h).mp hne)
  rw [unread, hn, List.range_succ_eq_map, List.map_cons, List.map_map, unread, occ_advanceRd h hn]
  congr 1
  · rw [Nat.add_zero, Nat.mod_eq_of_lt h.2.2]
  · refine List.map_congr_left fun k _ => ?_
    rw [advanceRd_rd (capacity_pos h), capacity_advanceRd, Nat.mod_add_mod, Nat.add_assoc, Nat.add_comm 1]
    rfl

end Sys2Proof.Machine
end

section
/-! The ring-buffer operations one by one (40_ring_buffer.md R140–R150, R152), and the boot sequence's RB_INIT. -/

namespace Sys2Proof.Machine

/-- The uninitialised case of each operation's statement (R140). -/
theorem exec_uninitialised_onlyFault {i : Instr} {r : Result} (h : neutralResult i = some r) {s : State}
    (hrun : Running s) (hi : s.rb.init = false) :
    ∃ t, exec i s = .next t ∧ OnlyFault .rbNotInitialised s t ∧ t.result = r :=
  ⟨_, exec_uninitialised h hrun hi, rfl, rfl⟩

/-- The same for an operation that returns nothing. -/
theorem exec_uninitialised_nothing {i : Instr} (h : neutralResult i = some .nothing) {s : State}
    (hrun : Running s) (hi : s.rb.init = false) : ∃ t, exec i s = .next t ∧ OnlyFault .rbNotInitialised s t :=
  ⟨_, exec_uninitialised h hrun hi, rfl⟩

/-- Settles O1: no cell of the new backing array is listed. -/
theorem rbInitAssignsCapacityAndZeroesCursors : Obligations.RbInitAssignsCapacityAndZeroesCursors := by
  intro c s hrun
  exact ⟨fun hc => ⟨_, exec_rbInit hc hrun, rfl, rfl, rfl, rfl, rfl, rfl, memRead_nil .rba⟩,
    fun hc => exec_refused hrun (congrArg (whenRunning s) (if_pos hc))⟩

/-- Settles O4, by the gate every one of these operations shares. -/
theorem uninitialisedRingBufferOnlyFaults : Obligations.UninitialisedRingBufferOnlyFaults := by
  refine ⟨fun i r s hr => ⟨fun hhalt t => ?_, fun hrun hi => exec_uninitialised hr hrun hi⟩, fun c s t hhalt => ?_⟩
  · rw [exec_halted i s hhalt]
    exact nofun
  · rw [exec_halted _ s hhalt]
    exact nofun

/-- Settles O5, by the two outcomes of R140's gate. -/
theorem rbIsEmptyReturnsCursorEquality : Obligations.RbIsEmptyReturnsCursorEquality := fun _ hrun =>
  ⟨fun hi => gate_open hrun hi rfl, fun hi => exec_uninitialised_onlyFault rfl hrun hi⟩

/-- Settles O6: the occupancy fits its register, as it is below the capacity. -/
theorem rbDataLenReturnsOccupancy : Obligations.RbDataLenReturnsOccupancy := by
  intro s hrun
  refine ⟨fun hi hcur => ?_, fun hi => exec_uninitialised_onlyFault rfl hrun hi⟩
  have hpos : 0 < capacity s := capacity_pos hcur
  have hlt : occ s < capacity s := occ_lt hpos
  have hcap : capacity s < 2 ^ 16 := s.rb.cap.isLt
  have hv : (BitVec.ofNat 16 (occ s)).toNat = occ s := by rw [BitVec.toNat_ofNat, Nat.mod_eq_of_lt (by omega)]
  refine ⟨BitVec.ofNat 16 (occ s), gate_open hrun hi rfl, ?_, ?_, ?_⟩
  · rw [hv]
    exact modSub_cast _ _ _ hpos
  · rw [hv]
    exact hlt
  · rw [← occ_eq_zero_iff hcur, ← BitVec.toNat_inj, hv]
    rfl

/-- Settles O7: the wrapped write, cell by cell; an accepted call is no longer than C. -/
theorem rbQueueBytesAppendsOrRejects : Obligations.RbQueueBytesAppendsOrRejects := by
  intro data s hrun
  refine ⟨fun hi _ hover => gate_open hrun hi (queueBytes_rejected hover), fun hi hcur hfit => ?_,
    fun hi => exec_uninitialised_onlyFault rfl hrun hi⟩
  have hlimit : limit s ≤ capacity s := limit_le s
  exact ⟨_, gate_open hrun hi (queueBytes_accepted hfit), rfl, appendBytes_wr data (capacity_pos hcur),
    fun k hk => cell_appendBytes_inside (by omega) hk, fun a ha => cell_appendBytes_outside ha, rfl⟩

/-- Settles O8: an accepted call returns true. -/
theorem rejectedQueueChangesNothing : Obligations.RejectedQueueChangesNothing := by
  intro data s t hi hexec hfalse
  obtain ⟨-, rfl⟩ := whenRunning_next hexec
  rw [whenInitialised_init hi] at hfalse ⊢
  by_cases hfit : data.length + occ s ≤ limit s
  · rw [queueBytes_accepted hfit] at hfalse
    cases hfalse
  · rw [queueBytes_rejected (by omega)]
    exact ⟨rfl, rfl, fun _ => rfl, rfl, rfl⟩

/-- Settles O9, by the three outcomes of the operation. -/
theorem rbDequeueByteTakesOneByte : Obligations.RbDequeueByteTakesOneByte := fun _ hrun =>
  ⟨fun hi he => gate_open hrun hi (dequeueByte_empty he),
    fun hi hne hcell => ⟨_, gate_open hrun hi (dequeueByte_unwritten hne hcell), rfl, rfl⟩,
    fun _ hi hcur hne hcell => ⟨_, gate_open hrun hi (dequeueByte_written hne hcell), rfl,
      advanceRd_rd (capacity_pos hcur)⟩,
    fun hi => exec_uninitialised_onlyFault rfl hrun hi⟩

/-- Settles O10: `k` is the number of bytes published. -/
theorem rbSetWriteIndexPublishes : Obligations.RbSetWriteIndexPublishes := by
  intro v s hrun
  refine ⟨fun hi hcur => ?_, fun hi => exec_uninitialised_nothing rfl hrun hi⟩
  have hpos : 0 < capacity s := capacity_pos hcur
  exact ⟨_, gate_open hrun hi (setWriteIndex_eq v s), rfl, toNat_ofNat_mod_capacity _ hpos,
    published v s, modSub_cast _ _ _ hpos, rfl⟩

/-- Settles O11: the cursor and the fault set are given apart. -/
theorem rbIncrementReadIndexAdvances : Obligations.RbIncrementReadIndexAdvances := by
  intro n s hrun
  refine ⟨fun hi hcur => ?_, fun hi => exec_uninitialised_nothing rfl hrun hi⟩
  exact ⟨_, gate_open hrun hi (incrementReadIndex_eq n s), rfl, toNat_ofNat_mod_capacity _ (capacity_pos hcur), rfl⟩

/-- Settles O13: one byte placed, with the overrun condition as an integer remainder. -/
theorem rbArrayWritePlacesByte : Obligations.RbArrayWritePlacesByte := by
  intro i s hrun
  refine ⟨fun b hi hlt => ?_, fun b hi hge => ⟨_, gate_open hrun hi (arrayWrite_badIndex hge b), rfl⟩,
    fun data hi hdata => ⟨_, gate_open hrun hi (arrayWrite_refused i hdata s), rfl⟩,
    fun data hi => exec_uninitialised_nothing rfl hrun hi⟩
  have hcell := cell_placeByte i.toNat b s
  exact ⟨_, gate_open hrun hi (arrayWrite_placed hlt b), rfl, (hcell _).trans (if_pos rfl),
    fun a ha => (hcell a).trans (if_neg ha), placeFaults_eq i.toNat (Nat.zero_lt_of_lt hlt)⟩

/-- Settles O14, by the three outcomes of the operation. -/
theorem rbArrayReadReturnsCell : Obligations.RbArrayReadReturnsCell := fun _ _ hrun =>
  ⟨fun _ hi hlt hcell => gate_open hrun hi (arrayRead_written hlt hcell),
    fun hi hlt hcell => ⟨_, gate_open hrun hi (arrayRead_unwritten hlt hcell), rfl, rfl⟩,
    fun hi hge => ⟨_, gate_open hrun hi (arrayRead_badIndex hge), rfl, rfl⟩,
    fun hi => exec_uninitialised_onlyFault rfl hrun hi⟩

/-- HOST's boot request placed first is what the next step runs (70_reset_and_hazards.md R284). -/
theorem step_bootRequest (p : Params) {s : State} (hrun : Running s) :
    step { s with inbox := bootRequest p :: s.inbox } = exec (.rbInit (BitVec.ofNat 16 p.rbCapacity)) s := by
  have hselect : selectPort (requestWord 0 (BitVec.ofNat 16 p.rbCapacity)) [] =
      .rbInit (BitVec.ofNat 16 p.rbCapacity) := by simp [selectPort]
  have hstep := step_placeRequest s (requestWord 0 (BitVec.ofNat 16 p.rbCapacity)) hrun
  rw [requestOfWord, hselect] at hstep
  exact hstep

/-- Settles O52: the first step runs RB_INIT with the configured capacity, which is in its range. -/
theorem bootReachesLaunchState : Obligations.BootReachesLaunchState := by
  intro p flash d rest hp
  obtain ⟨hlow, hhigh⟩ := hp.rbCapacity_range
  have hcap : (BitVec.ofNat 16 p.rbCapacity).toNat = p.rbCapacity := by
    rw [BitVec.toNat_ofNat, Nat.mod_eq_of_lt (by omega)]
  have hstep := step_bootRequest p (s := { State.reset with cfg := p, flash := flash, draws := d, inbox := rest }) rfl
  rw [exec_rbInit (by omega) rfl] at hstep
  exact ⟨_, hstep, rfl, hcap, rfl, memRead_nil .rba, rfl, rfl, rfl⟩

end Sys2Proof.Machine
end

section
/-! The FIFO law (40_ring_buffer.md R151). -/

namespace Sys2Proof.Machine

/-- A running, initialised block with these unread bytes, all written, in FIFO order. -/
structure FifoHolds (q : Bytes) (s : State) : Prop where
  ready : RbReady s
  cursors : CursorsOk s
  unread : unread s = q.map some

/-- The invariant looks at the ring buffer and the halt bit alone. -/
theorem FifoHolds.congr {q : Bytes} {s t : State} (h : FifoHolds q s) (hrb : t.rb = s.rb)
    (hhalt : t.blk.halted = s.blk.halted) : FifoHolds q t := by
  obtain ⟨⟨hrun, hi⟩, hcur, hq⟩ := h
  refine ⟨⟨hhalt.trans hrun, by rw [hrb, hi]⟩, ?_, ?_⟩
  · simpa only [CursorsOk, capacity, hrb] using hcur
  · simpa only [Machine.unread, occ, capacity, State.cell, State.memory, hrb] using hq

theorem rbInit_fifoHolds {c : BitVec 16} (hc : 2 ≤ c.toNat) {s : State} (hrun : Running s) :
    FifoHolds [] (rbInit c s) := by
  have hpos : 0 < c.toNat := by omega
  have hcur : CursorsOk (rbInit c s) := by
    rw [rbInit_accepted hc]
    exact ⟨hc, hpos, hpos⟩
  have hocc : occ (rbInit c s) = 0 := (occ_eq_zero_iff hcur).mpr (by rw [rbInit_accepted hc]; rfl)
  refine ⟨?_, hcur, by rw [unread, hocc]; rfl⟩
  rw [rbInit_accepted hc]
  exact ⟨hrun, rfl⟩

theorem addFault_ne_none (c : FaultCode) (f : FaultBits) : addFault c f ≠ FaultBits.none := fun h => by
  have hbit := hasFault_addFault f c c
  simp [h, hasFault_none] at hbit

/-- An accepted RB_QUEUE_BYTES without a fault stays short of the capacity, in Verbatim mode too (R144). -/
theorem fits_of_queueFaults {data : Bytes} {s : State} (hc : 2 ≤ capacity s) (hle : data.length + occ s ≤ limit s)
    (hf : queueFaults data s = FaultBits.none) : data.length + occ s < capacity s := by
  unfold limit at hle
  split at hle
  · omega
  · next hmode =>
    refine lt_of_le_of_ne hle fun hfull => ?_
    rw [queueFaults, if_pos ⟨hmode, hfull⟩] at hf
    exact addFault_ne_none _ _ hf

theorem queueBytes_fifo {data q : Bytes} {s : State} (h : FifoHolds q s)
    (hf : (queueBytes data s).blk.faults = FaultBits.none) :
    FifoHolds (q ++ fifoIn (.queue data) (queueBytes data s).result) (queueBytes data s) := by
  by_cases hfit : data.length + occ s ≤ limit s
  · obtain ⟨hready, hcur, hq⟩ := h
    rw [queueBytes_accepted hfit] at hf ⊢
    have happend : FifoHolds (q ++ data) (appendBytes data s) :=
      ⟨hready, appendBytes_cursorsOk data hcur, by
        rw [unread_appendBytes hcur (fits_of_queueFaults hcur.1 hfit hf), hq, List.map_append]⟩
    exact happend.congr rfl rfl
  · rw [queueBytes_rejected (by omega)]
    exact (List.append_nil q).symm ▸ h.congr rfl rfl

theorem dequeueByte_fifo {q : Bytes} {s : State} (h : FifoHolds q s) :
    ∃ q', FifoHolds q' (dequeueByte s) ∧ q = fifoOut .dequeue (dequeueByte s).result ++ q' := by
  by_cases hempty : s.rb.wr = s.rb.rd
  · rw [dequeueByte_empty hempty]
    exact ⟨q, h.congr rfl rfl, rfl⟩
  · obtain ⟨hready, hcur, hq⟩ := h
    rw [unread_advanceRd hcur hempty] at hq
    cases q with
    | nil => cases hq
    | cons b q =>
      obtain ⟨hcell, hrest⟩ := List.cons.inj hq
      rw [dequeueByte_written hempty hcell]
      exact ⟨q, .congr (s := advanceRd s) ⟨hready, advanceRd_cursorsOk hcur, hrest⟩ rfl rfl, rfl⟩

/-- One operation: what was unread and what goes in is what comes out and what is unread after. -/
theorem exec_fifo {op : FifoOp} {q : Bytes} {s t : State} (hexec : exec (fifoInstr op) s = .next t)
    (hf : t.blk.faults = FaultBits.none) (h : FifoHolds q s) :
    ∃ q', FifoHolds q' t ∧ q ++ fifoIn op t.result = fifoOut op t.result ++ q' := by
  obtain ⟨hrun, hi⟩ := h.ready
  cases op with
  | queue data =>
    obtain rfl := Host.Outcome.next.inj ((gate_open hrun hi rfl).symm.trans hexec)
    exact ⟨_, queueBytes_fifo h hf, rfl⟩
  | dequeue =>
    obtain rfl := Host.Outcome.next.inj ((gate_open hrun hi rfl).symm.trans hexec)
    obtain ⟨q', hq', hout⟩ := dequeueByte_fifo h
    exact ⟨q', hq', (List.append_nil q).trans hout⟩

/-- A FIFO operation answers a next state, in which the block still runs and no fault is removed. -/
theorem exec_fifoInstr (op : FifoOp) {s : State} (hrun : Running s) :
    ∃ t, exec (fifoInstr op) s = .next t ∧ Running t ∧
      (t.blk.faults = FaultBits.none → s.blk.faults = FaultBits.none) := by
  obtain ⟨t, ht⟩ : ∃ t, exec (fifoInstr op) s = .next t := by
    cases op with
    | queue data => exact ⟨_, whenRunning_running hrun _⟩
    | dequeue => exact ⟨_, whenRunning_running hrun _⟩
  have hframe := exec_instrFrame ht
  refine ⟨t, ht, ?_, fun hf => faultBits_ext _ _ fun c => ?_⟩
  · obtain ⟨hkept, -⟩ | ⟨-, -, hi, -⟩ := hframe.halt
    · exact hkept.trans hrun
    · cases op <;> simp [fifoInstr] at hi
  · have hsticky := hframe.faults c
    rw [hf, hasFault_none] at hsticky
    rw [hasFault_none]
    simpa using hsticky

/-- A run: it ends, and without a fault what was unread and what went in is what came out and what is unread after. -/
theorem fifoRun_fifo (ops : List FifoOp) {s : State} (hrun : Running s) :
    ∃ accepted returned u, fifoRun ops s = some (accepted, returned, u) ∧
      (u.blk.faults = FaultBits.none → s.blk.faults = FaultBits.none ∧
        ∀ q, FifoHolds q s → ∃ q', FifoHolds q' u ∧ q ++ accepted = returned ++ q') := by
  induction ops generalizing s with
  | nil => exact ⟨[], [], s, rfl, fun hf => ⟨hf, fun q hq => ⟨q, hq, List.append_nil q⟩⟩⟩
  | cons op ops ih =>
    obtain ⟨t, ht, hrun', hback⟩ := exec_fifoInstr op hrun
    obtain ⟨accepted, returned, u, hu, hlaw⟩ := ih hrun'
    refine ⟨fifoIn op t.result ++ accepted, fifoOut op t.result ++ returned, u, by simp only [fifoRun, ht, hu],
      fun hf => ?_⟩
    obtain ⟨hft, hrest⟩ := hlaw hf
    refine ⟨hback hft, fun q hq => ?_⟩
    obtain ⟨q', hq', hfirst⟩ := exec_fifo ht hft hq
    obtain ⟨q'', hq'', hlast⟩ := hrest q' hq'
    refine ⟨q'', hq'', ?_⟩
    rw [← List.append_assoc, hfirst, List.append_assoc, hlast, List.append_assoc]

/-- An empty buffer holds no unread byte. -/
theorem FifoHolds.eq_nil {q : Bytes} {s : State} (h : FifoHolds q s) (he : isEmpty s = true) : q = [] := by
  have hocc : occ s = 0 := (occ_eq_zero_iff h.cursors).mpr (of_decide_eq_true he)
  have hq := h.unread
  rw [Machine.unread, hocc] at hq
  exact List.map_eq_nil_iff.mp hq.symm

/-- Settles O15: from RB_INIT nothing is unread, so the bytes returned and those left unread are the bytes accepted. -/
theorem fifoLaw : Obligations.FifoLaw := by
  intro c ops s t hrun hc _ hinit
  obtain ⟨-, rfl⟩ := whenRunning_next hinit
  have hstart : FifoHolds [] (rbInit c s) := rbInit_fifoHolds hc hrun
  obtain ⟨accepted, returned, u, hu, hlaw⟩ := fifoRun_fifo ops hstart.ready.1
  refine ⟨accepted, returned, u, hu, fun hf => ?_⟩
  obtain ⟨q, hq, heq⟩ := (hlaw hf).2 [] hstart
  refine ⟨⟨q, heq.symm⟩, fun he => ?_⟩
  rw [hq.eq_nil he, List.append_nil] at heq
  exact heq.symm

end Sys2Proof.Machine
end

section
/-! FR_POLL byte by byte (41_frame_codec.md R170–R178): the silent receive step said once, and the delivery. -/

namespace Sys2Proof.Machine

/-! ### One byte consumed (R170) -/

/-- A halted block has no next state (10_state.md R45). -/
theorem exec_ne_next_of_halted {i : Instr} {s t : State} (h : s.blk.halted = true) : exec i s ≠ .next t := by
  rw [exec_halted i s h]
  exact nofun

/-- FR_POLL where the byte completes no frame: the read cursor moves and the receiver takes its new registers. -/
theorem exec_frPoll_silent {s : State} {b : Byte} {st : RxState} {f : Receiver} (h : PollReads s b)
    (hst : rxStateAt s.fr.pos.toNat s.fr.len.toNat = some st)
    (hstep : rxStepAt st b (pollBase s) = (setFr f (pollBase s), none)) :
    exec .frPoll s = .next (polled s f) := by
  rw [exec_frPoll_state h hst, hstep]
  rfl

theorem exec_frPoll_running {s : State} (hrun : Running s) : exec .frPoll s = poll s := if_neg (by simp [hrun])

theorem exec_frPoll_uninitialised {s : State} (hrun : Running s) (hi : s.rb.init = false) :
    exec .frPoll s = .next (ret .nothing (raiseFault .rbNotInitialised s)) := by
  rw [exec_frPoll_running hrun, poll, if_pos hi]

theorem exec_frPoll_empty {s : State} (h : RbReady s) (he : s.rb.wr = s.rb.rd) :
    exec .frPoll s = .next (ret .nothing s) := by
  obtain ⟨hrun, hi⟩ := h
  rw [exec_frPoll_running hrun, poll, if_neg (by simp [hi]), if_pos (show isEmpty s = true from decide_eq_true he)]

theorem exec_frPoll_unwritten {s : State} (h : RbReady s) (hne : s.rb.wr ≠ s.rb.rd)
    (hcell : s.cell .rba s.rb.rd.toNat = none) :
    exec .frPoll s = .next (ret .nothing (raiseFault .rbUnwrittenRead s)) := by
  obtain ⟨hrun, hi⟩ := h
  rw [exec_frPoll_running hrun, poll, if_neg (by simp [hi]), if_neg (by simpa [isEmpty] using hne), hcell]

/-- FR_POLL's dispatch of a completed frame is the instruction its command byte selects (R180). -/
theorem exec_selectFrame_finishPoll {p : Params} {r : State × Option (Byte × Bytes)} (hcfg : r.1.cfg = p)
    (hrun : Running r.1) {cmd : Byte} {payload : Bytes} (hr : r.2 = some (cmd, payload)) :
    exec (selectFrame p cmd payload) r.1 = .next (finishPoll r) := by
  rw [← hcfg, exec_selectFrame cmd payload hrun, finishPoll, hr]

/-- Settles O17, by the outcomes of FR_POLL's ring-buffer read; the receive step keeps the configuration and the block
running. -/
theorem frPollConsumesOneByte : Obligations.FrPollConsumesOneByte := by
  refine ⟨fun s t hhalt => ?_, fun s hrun => ⟨fun hi => ?_, fun hi he => ?_, fun hi hne hcell => ?_,
    fun b hreads hcur hpos => ?_⟩⟩
  · exact exec_ne_next_of_halted hhalt
  · exact ⟨_, exec_frPoll_uninitialised hrun hi, rfl⟩
  · exact exec_frPoll_empty ⟨hrun, hi⟩ he
  · exact ⟨_, exec_frPoll_unwritten ⟨hrun, hi⟩ hne hcell, rfl⟩
  · obtain ⟨st, hst⟩ := rxStateAt_some _ _ hpos
    have hframe : (rxStepAt st b (pollBase s)).1 = afterReceive st b s := rxStepAt_frame _ _ _
    refine ⟨pollBase s, rxStepAt st b (pollBase s), finishPoll (rxStepAt st b (pollBase s)), rfl,
      advanceRd_rd (capacity_pos hcur), rxStep_eq b hst, exec_frPoll_state hreads hst, fun hnone => ?_,
      fun cmd payload hsome => ?_⟩
    · rw [finishPoll, hnone]
    · exact exec_selectFrame_finishPoll (by rw [hframe]; rfl) (by rw [hframe]; exact hrun) hsome

/-! ### Scanning and collecting (R171–R176, R178) -/

/-- Settles O18: in each scanning state the receive step writes the receiver's registers alone. -/
theorem frPollScansPreambleAndLength : Obligations.FrPollScansPreambleAndLength := by
  intro b s h
  refine ⟨fun hpos => ?_, fun hpos => ?_, fun hpos hb => ?_, fun hpos hb => ?_⟩
  · refine exec_frPoll_silent (st := .waitPreamble1) h (by rw [hpos]; rfl) ?_
    rw [rxStepAt]
    split <;> rfl
  · refine exec_frPoll_silent (st := .waitPreamble2) h (by rw [hpos]; rfl) ?_
    rw [rxStepAt, rxMismatch_eq]
    split <;> rfl
  · refine exec_frPoll_silent (st := .waitLength) h (by rw [hpos]; rfl) ?_
    rw [rxStepAt, if_pos hb]
    rfl
  · refine exec_frPoll_silent (st := .waitLength) h (by rw [hpos]; rfl) ?_
    rw [rxStepAt, if_neg (Nat.not_le.mpr hb), rxMismatch_eq]
    rfl

/-- Settles O19: the position stays within its register, as a frame has at most 133 bytes. -/
theorem frPollCollectsFrameBody : Obligations.FrPollCollectsFrameBody := by
  intro b s h hlen
  refine ⟨fun hpos => ?_, fun h4 hlt => ?_, fun hpos => ?_⟩
  · exact exec_frPoll_silent (st := .waitCommand) h (by rw [hpos]; rfl) rfl
  · have hcell : ∀ j, memRead .rxp (memWrite .rxp s.fr.rxp (s.fr.pos.toNat - 4) [b]) j =
        if j = s.fr.pos.toNat - 4 then some b else memRead .rxp s.fr.rxp j := memRead_memWrite_one _ _ _ _
    exact ⟨_, exec_frPoll_silent h (rxStateAt_payload _ _ h4 hlt) rfl, rfl, pos_succ_toNat (s := s) (by omega),
      (hcell _).trans (if_pos rfl), fun j hj => (hcell j).trans (if_neg hj)⟩
  · exact ⟨_, exec_frPoll_silent h (by rw [hpos, rxStateAt_crcLow]) rfl, rfl, pos_succ_toNat (s := s) (by omega)⟩

/-! ### The CRC's high byte (R177) -/

/-- Settles O20: the payload RXP holds is the one the CRC is computed over and the one delivered. -/
theorem frPollChecksCrc : Obligations.FrPollChecksCrc := by
  intro b payload s h _ hpos hlen hheld
  have hst : rxStateAt s.fr.pos.toNat s.fr.len.toNat = some .waitCrcHigh := by rw [hpos, rxStateAt_crcHigh]
  have hpl : rxPayload (pollBase s) = payload := rxPayload_eq (s := pollBase s) hlen hheld
  have hcrc := crcMatches_iff b (pollBase s)
  rw [hpl] at hcrc
  refine ⟨fun hne => ?_, fun heq => ?_⟩
  · refine exec_frPoll_silent h hst ?_
    rw [rxStepAt, if_neg (mt hcrc.mp hne)]
    rfl
  · have hstep : rxStepAt .waitCrcHigh b (pollBase s) =
        (polled s { s.fr with pos := 0 }, some (s.fr.cmd, payload)) := by
      rw [rxStepAt, if_pos (hcrc.mpr heq), hpl]
      rfl
    rw [exec_frPoll_state h hst, hstep]
    obtain ⟨⟨hrun, -⟩, -⟩ := h
    exact (exec_selectFrame_finishPoll rfl hrun rfl).symm

end Sys2Proof.Machine
end

section
/-! The dispatch table (41_frame_codec.md R180), the two classes without a handler (R184, R185), FR_SEND (R182), and that
none of them raises a model fault (60_exceptions.md R263). -/

namespace Sys2Proof.Machine

/-! ### The dispatch table (R180) -/

/-- The thirteen DFU commands in the order of their codes (30_encoding.md R115). -/
def dfuCmds : List DfuCmd :=
  [.initReq, .initResp, .statusReq, .statusResp, .pageCreateReq, .pageCreateResp, .writeDataEvt, .pageStoreReq,
   .pageStoreResp, .stateCheckReq, .stateCheckResp, .cancelReq, .cancelResp]

theorem mem_dfuCmds (k : DfuCmd) : k ∈ dfuCmds := by cases k <;> decide

theorem cmdCodes_all_eq_map (c : CmdCodes) : c.all = dfuCmds.map c.code := rfl

theorem code_mem_all (c : CmdCodes) (k : DfuCmd) : c.code k ∈ c.all := by
  rw [cmdCodes_all_eq_map]
  exact List.mem_map_of_mem (mem_dfuCmds k)

/-- The thirteen codes are distinct (R115). -/
theorem code_injective {p : Params} (h : p.Valid) : Function.Injective p.cmd.code := by
  have hnodup := h.cmd_nodup
  rw [cmdCodes_all_eq_map] at hnodup
  exact fun k l hkl => List.inj_on_of_nodup_map hnodup (mem_dfuCmds k) (mem_dfuCmds l) hkl

/-- The DFU commands the block receives (R115). -/
def receiveCmds : List DfuCmd :=
  [.initReq, .statusReq, .pageCreateReq, .writeDataEvt, .pageStoreReq, .stateCheckResp, .cancelResp]

/-- The DFU commands the block only sends (R115). -/
def sentCmds : List DfuCmd := [.initResp, .statusResp, .pageCreateResp, .pageStoreResp, .stateCheckReq, .cancelReq]

theorem sentCmds_not_received : ∀ k ∈ sentCmds, k ∉ receiveCmds := by decide

theorem receiveCodes_eq_map (p : Params) : receiveCodes p = receiveCmds.map p.cmd.code := rfl

/-- The code of a command the block does not receive is ignored: it is no receive code and is not forwarded. -/
theorem classify_notReceived {p : Params} (h : p.Valid) {k : DfuCmd} (hk : k ∉ receiveCmds) :
    classify p (p.cmd.code k) = .ignore := by
  refine classify_other ?_ (h.cmd_not_forwarded _ (code_mem_all _ k))
  rwa [receiveCodes_eq_map, List.mem_map_of_injective (code_injective h)]

/-- Settles O21: the row is the one `classify` gives; the block-to-peer codes are of commands it does not receive. -/
theorem dispatchSelectsExactlyOneRow : Obligations.DispatchSelectsExactlyOneRow := by
  intro p payload h
  have hselect : ∀ {cmd : Byte} {k : FrameClass}, classify p cmd = k →
      selectFrame p cmd payload = frameInstr k cmd payload := fun hk => congrArg (frameInstr · _ payload) hk
  obtain ⟨hinit, hstatus, hcreate, hwrite, hstore, hcheck, hcancel⟩ := classify_code h
  refine ⟨⟨hselect hinit, hselect hstatus, hselect hcreate, hselect hwrite, hselect hstore, hselect hcheck,
    hselect hcancel⟩, fun cmd hf => hselect (classify_forwarded h hf),
    fun cmd hc hf => hselect (classify_other hc hf), fun cmd hc => ?_⟩
  have hsent : cmd ∈ sentCmds.map p.cmd.code := hc
  obtain ⟨k, hk, rfl⟩ := List.mem_map.mp hsent
  exact hselect (classify_notReceived h (sentCmds_not_received k hk))

/-! ### Forward and Ignore (R184, R185) -/

/-- Settles O26: both are next states of a running block. -/
theorem forwardAppendsAndIgnoreDoesNothing : Obligations.ForwardAppendsAndIgnoreDoesNothing :=
  fun _ _ _ hrun => ⟨whenRunning_running hrun _, whenRunning_running hrun _⟩

/-! ### FR_SEND (R182) -/

/-- FR_SEND with a command operand in range hands its frame to the encoder. -/
theorem exec_frSend_accepted {a : BitVec 16} (ha : a.extractLsb' 8 8 = 0#8) (payload : Bytes) {s : State}
    (hrun : Running s) :
    exec (.frSend a payload) s =
      .next (ret (.bool (emit (a.extractLsb' 0 8) payload s).1) (emit (a.extractLsb' 0 8) payload s).2) := by
  refine (whenRunning_running hrun _).trans (congrArg _ ?_)
  rw [frSend, sendCommand, if_pos ha]

/-- Settles O24, by the two outcomes of the encoder; the refused operand is O2's. -/
theorem frSendTransmitsWholeFrameOrNothing : Obligations.FrSendTransmitsWholeFrameOrNothing := by
  refine ⟨fun a payload s t hhalt => ?_, fun a payload s hrun => ⟨fun ha hlen => ?_, fun ha hlen => ?_, ?_⟩⟩
  · exact exec_ne_next_of_halted hhalt
  · rw [exec_frSend_accepted ha payload hrun, emit_eq hlen]
    rfl
  · rw [exec_frSend_accepted ha payload hrun, emit_oversize hlen]
    rfl
  · obtain ⟨-, -, -, hrefused⟩ := refusedRequestsOnlySetTheirFaultBit s hrun
    exact hrefused a payload

/-! ### Model faults (60_exceptions.md R263) -/

/-- FR_POLL's dispatch and receive step raise no fault: a fault is the ring-buffer read's (R170). -/
theorem exec_frPoll_faults {s t : State} (h : exec .frPoll s = .next t) :
    t.blk.faults = s.blk.faults ∨ t.blk.faults = addFault .rbNotInitialised s.blk.faults ∨
      t.blk.faults = addFault .rbUnwrittenRead s.blk.faults := by
  obtain ⟨-, ⟨-, rfl⟩ | rfl | rfl | ⟨b, st, -, -, hrx⟩⟩ := exec_frPoll_cases h
  · exact .inr (.inl rfl)
  · exact .inl rfl
  · exact .inr (.inr rfl)
  · rw [rxStepAt_frame] at hrx
    obtain ⟨-, rfl⟩ | ⟨cmd, payload, -, rfl⟩ := hrx
    · exact .inl rfl
    · exact .inl (runHandler_frame _ cmd payload _).faults

/-- Settles O42: a handler and the encoder keep the fault set. -/
theorem handlersRaiseNoModelFault : Obligations.HandlersRaiseNoModelFault := by
  refine ⟨fun i s t hi h => ?_, fun a payload s t ha h => ?_, fun s t h => exec_frPoll_faults h⟩
  · obtain hframe | rfl := hi
    · obtain ⟨k, cmd, payload, -, -, rfl⟩ := exec_frame_next hframe h
      exact (runHandler_frame k cmd payload s).faults
    · obtain ⟨-, rfl⟩ := whenRunning_next h
      exact (emit_frame _ _ s).faults
  · rw [exec_frSend_accepted ha payload (exec_next_running h)] at h
    cases h
    exact (emit_frame _ _ s).faults

end Sys2Proof.Machine
end

section
/-! The fields of the DFU payloads (30_encoding.md R120–R128), the payloads too short to carry them
(42_dfu_engine.md R200), and the application data (R201). -/

namespace Sys2Proof.Machine

/-! ### Fields at an offset (00_scope.md R13) -/

theorem slice_append_middle (a b c : Bytes) {i j : Nat} (hi : i = a.length) (hj : j = i + b.length) :
    slice (a ++ (b ++ c)) i j = b := by
  subst hi hj
  simp [slice]

theorem byteAt_append_cons (a : Bytes) (b : Byte) (c : Bytes) {i : Nat} (hi : i = a.length) :
    byteAt (a ++ b :: c) i = b := by
  subst hi
  simp [byteAt]

/-- A length up to 255 is the value of its byte. -/
theorem toNat_lengthByte {bs : Bytes} (h : bs.length ≤ 255) : (BitVec.ofNat 8 bs.length).toNat = bs.length := by
  rw [BitVec.toNat_ofNat, Nat.mod_eq_of_lt (by omega)]

/-! ### INIT_REQ (R120, R121, R202) -/

/-- The INIT_REQ payload of a size, a digest, reversed on the wire, and application data, with bytes after it (R120). -/
def initPayload (size : BitVec 32) (sha app rest : Bytes) : Bytes :=
  le32 size ++ sha.reverse ++ [BitVec.ofNat 8 app.length] ++ app ++ rest

theorem initPayload_eq_cons (size : BitVec 32) (sha app rest : Bytes) :
    initPayload size sha app rest = (le32 size ++ sha.reverse) ++ BitVec.ofNat 8 app.length :: (app ++ rest) := by
  simp [initPayload]

theorem initSize_initPayload (size : BitVec 32) (sha app rest : Bytes) :
    initSize (initPayload size sha app rest) = size := by
  simp only [initSize, initPayload, List.append_assoc]
  exact rdle32_le32 size _

section
variable {sha app : Bytes} (hsha : sha.length = 32)
include hsha

theorem initDigest_initPayload (size : BitVec 32) (app rest : Bytes) :
    initDigest (initPayload size sha app rest) = sha := by
  simp only [initDigest, initPayload, List.append_assoc]
  rw [slice_append_middle (i := 4) (j := 36) (le32 size) sha.reverse _ rfl (by simp [hsha]), List.reverse_reverse]

variable (happ : app.length ≤ 255)
include happ

theorem initAppLength_initPayload (size : BitVec 32) (rest : Bytes) :
    (byteAt (initPayload size sha app rest) 36).toNat = app.length := by
  rw [initPayload_eq_cons, byteAt_append_cons _ _ _ (by simp [hsha]), toNat_lengthByte happ]

theorem initApp_initPayload (size : BitVec 32) (rest : Bytes) : initApp (initPayload size sha app rest) = app := by
  rw [initApp, initAppLength_initPayload hsha happ, initPayload, List.append_assoc _ app]
  exact slice_append_middle _ _ _ (by simp [hsha]) rfl

theorem initWellFormed_initPayload (size : BitVec 32) (rest : Bytes) :
    initWellFormed (initPayload size sha app rest) = true := by
  have hlen : (initPayload size sha app rest).length = 37 + app.length + rest.length := by
    simp [initPayload, hsha]
    omega
  rw [initWellFormed, initAppLength_initPayload hsha happ, Bool.and_eq_true_iff, decide_eq_true_iff,
    decide_eq_true_iff]
  omega

end

/-! ### PAGE_CREATE_REQ, WRITE_DATA_EVT and STATE_CHECK_RESP (R125, R126, R128) -/

theorem requestedSize_of_le {pl : Bytes} (h : 4 ≤ pl.length) : requestedSize pl = some (rdle32 pl 0) := if_pos h

theorem requestedSize_le32 (req : BitVec 32) (rest : Bytes) : requestedSize (le32 req ++ rest) = some req := by
  rw [requestedSize_of_le (by simp), rdle32_le32]

theorem writeChunk_of_le {pl : Bytes} (h : 1 ≤ pl.length) (hc : 1 + (byteAt pl 0).toNat ≤ pl.length) :
    writeChunk pl = some (slice pl 1 (1 + (byteAt pl 0).toNat)) := if_pos ⟨h, hc⟩

theorem writeChunk_cons {chunk : Bytes} (h : chunk.length ≤ 255) (rest : Bytes) :
    writeChunk (BitVec.ofNat 8 chunk.length :: (chunk ++ rest)) = some chunk := by
  have hlen : (byteAt (BitVec.ofNat 8 chunk.length :: (chunk ++ rest)) 0).toNat = chunk.length := toNat_lengthByte h
  rw [writeChunk_of_le (by simp) (by simp [hlen]; omega), hlen]
  exact congrArg some (slice_append_middle [_] chunk rest rfl rfl)

theorem peerInProgress_cons (flag : Byte) (rest : Bytes) : peerInProgress (flag :: rest) = some (decide (flag ≠ 0)) :=
  if_pos (by simp)

/-! ### Malformed payloads (R200) -/

theorem initReq_malformed {pl : Bytes} (h : pl.length < 37 ∨ pl.length < 37 + (byteAt pl 36).toNat) (s : State) :
    initReq pl s = s := by
  refine if_neg ?_
  rw [initWellFormed, Bool.and_eq_true_iff, decide_eq_true_iff, decide_eq_true_iff]
  omega

theorem pageCreateReq_malformed {pl : Bytes} (h : pl.length < 4) (s : State) : pageCreateReq pl s = s := by
  rw [pageCreateReq, requestedSize, if_neg (by omega)]

theorem writeDataEvt_malformed {pl : Bytes} (h : pl.length < 1 ∨ pl.length < 1 + (byteAt pl 0).toNat) (s : State) :
    writeDataEvt pl s = s := by
  rw [writeDataEvt, writeChunk, if_neg (by omega)]

theorem stateCheckResp_malformed {pl : Bytes} (h : pl.length < 1) (s : State) : stateCheckResp pl s = s := by
  rw [stateCheckResp, peerInProgress, if_neg (by omega)]

/-- In a running block a handler's next state is the operation's answer (10_state.md R45). -/
theorem whenRunning_eq_next {s t u : State} (hrun : Running s) (h : t = u) : whenRunning s t = .next u :=
  h ▸ whenRunning_running hrun t

/-- Settles O28. -/
theorem malformedPayloadsAreDropped : Obligations.MalformedPayloadsAreDropped := by
  intro p s hrun
  exact ⟨fun h => whenRunning_eq_next hrun (initReq_malformed h s),
    fun h => whenRunning_eq_next hrun (pageCreateReq_malformed h s),
    fun h => whenRunning_eq_next hrun (writeDataEvt_malformed h s),
    fun h => whenRunning_eq_next hrun (stateCheckResp_malformed h s)⟩

/-! ### Application data (R201) -/

/-- The slash after a tag without one is the first. -/
theorem appTag_appBuild_append_slash {tag : Bytes} (h : Config.slash ∉ tag) (build : Bytes) :
    appTag (tag ++ Config.slash :: build) = tag ∧ appBuild (tag ++ Config.slash :: build) = build := by
  have hkeep : ∀ b ∈ tag, (b != Config.slash) = true := fun b hb => bne_iff_ne.mpr fun e => h (e ▸ hb)
  constructor
  · rw [appTag, List.takeWhile_append_of_pos hkeep]
    simp
  · rw [appBuild, List.dropWhile_append_of_pos hkeep]
    simp

/-- Settles O27: the first slash divides the data into `tag` and `build`. -/
theorem validateAppSplitsAtFirstSlash : Obligations.ValidateAppSplitsAtFirstSlash := by
  refine fun p => ⟨if_pos rfl, fun app hne hslash => ?_, fun tag build htag hne => ?_⟩
  · rw [validateApp, if_neg hne, if_pos hslash]
  · obtain ⟨hsplit, hbuild⟩ := appTag_appBuild_append_slash htag build
    have hmem : ¬ Config.slash ∉ tag ++ Config.slash :: build := by simp
    rw [validateApp, if_neg hne, if_neg hmem, hsplit, hbuild]
    refine ⟨fun h => if_pos h, fun h hb => ?_, fun h hb => ?_⟩
    · rw [if_neg (not_not.mpr h), if_pos hb]
    · rw [if_neg (not_not.mpr h), if_neg hb]

end Sys2Proof.Machine
end

section
/-! The DFU handlers that write no FLASH (42_dfu_engine.md R204–R207, R212–R214), and the out-of-session law
(R218). -/

namespace Sys2Proof.Machine

/-! ### DFU_STATE_CHECK, STATE_CHECK_RESP and CANCEL_RESP (R212–R214) -/

/-- Settles O25: the empty payload fits a frame, so the encoder takes it. -/
theorem dfuStateCheckEmitsRequest : Obligations.DfuStateCheckEmitsRequest := by
  refine ⟨fun s t hhalt => exec_ne_next_of_halted hhalt, fun s hrun => whenRunning_eq_next hrun ?_⟩
  rw [dfuStateCheck, emit_eq (Nat.zero_le _)]
  rfl

/-- Settles O38. -/
theorem stateCheckRespCancelsOnDisagreement : Obligations.StateCheckRespCancelsOnDisagreement := by
  intro flag rest s hrun
  refine ⟨fun hne => whenRunning_eq_next hrun ?_,
    fun heq => whenRunning_eq_next hrun ?_, whenRunning_running hrun _⟩
  · simp only [stateCheckResp, peerInProgress_cons]
    rw [if_neg hne, emitCancel_eq]
  · simp only [stateCheckResp, peerInProgress_cons]
    rw [if_pos heq]

/-- Settles O39. -/
theorem cancelRespResetsSession : Obligations.CancelRespResetsSession := fun _ _ hrun =>
  ⟨_, whenRunning_running hrun _, rfl, rfl, rfl, rfl, rfl, rfl, rfl, fun j _ => memRead_nil .pbuf j⟩

/-! ### STATUS_REQ (R204, R217) -/

/-- The status fits a frame, so the encoder takes it. -/
theorem statusReq_eq (s : State) :
    statusReq s = transmit [wireFrame s.cfg s.cfg.cmd.statusResp (statusPayload s)] s := by
  rw [statusReq, emit_eq (by simp [statusPayload, Config.maxPayload])]
  rfl

/-- The first bytes of FLASH are the string they hold (R78). -/
theorem flashBytes_eq {s : State} {bs : Bytes} {n : Nat} (hl : bs.length = n) (h : Holds s .flash 0 bs) :
    flashBytes s n = bs := hl ▸ memBytes_eq _ _ _ _ _ h

/-- Settles O30: the status of the flashed bytes and the pending page. -/
theorem statusReportsProgressAndCrc : Obligations.StatusReportsProgressAndCrc := by
  intro p flashed page s hrun hflashed hpage hfl hpb _
  refine whenRunning_eq_next hrun ?_
  rw [statusReq_eq, statusPayload, runningCrc32, flashBytes_eq hflashed hfl, pageBytes_eq hpage hpb, ← hflashed,
    ← hpage]
  rfl

/-! ### PAGE_CREATE_REQ (R205) -/

theorem pageCreateReq_idle {pl : Bytes} {req : BitVec 32} (hreq : requestedSize pl = some req) {s : State}
    (hp : s.dfu.inProgress = false) :
    pageCreateReq pl s =
      transmit [responseFrame s.cfg .pageCreateResp .operationNotPermitted, cancelFrame s.cfg] s := by
  simp only [pageCreateReq, hreq]
  rw [if_pos hp, emitCancel_eq, respond_eq]
  exact transmit_transmit _ _ s

/-- In a session the size decides. -/
theorem pageCreateReq_session_eq {pl : Bytes} {req : BitVec 32} (hreq : requestedSize pl = some req) {s : State}
    (hp : s.dfu.inProgress = true) :
    pageCreateReq pl s =
      if 1024 < req.toNat then transmit [responseFrame s.cfg .pageCreateResp .insufficientResources] s
      else openPage req (transmit [responseFrame s.cfg .pageCreateResp .success] s) := by
  simp only [pageCreateReq, hreq]
  rw [if_neg (by simp [hp]), respond_eq, respond_eq]
  rfl

/-- Settles O31. -/
theorem pageCreateOpensPage : Obligations.PageCreateOpensPage := by
  intro req rest s hrun
  have hreq := requestedSize_le32 req rest
  refine ⟨fun hp => ?_, fun hp hbig => ?_, fun hp hfit => ?_, fun short h => ?_⟩
  · exact whenRunning_eq_next hrun (pageCreateReq_idle hreq hp)
  · exact whenRunning_eq_next hrun ((pageCreateReq_session_eq hreq hp).trans (if_pos hbig))
  · have hsize : (BitVec.ofNat 16 req.toNat).toNat = req.toNat := by
      rw [BitVec.toNat_ofNat, Nat.mod_eq_of_lt (by omega)]
    have hopen := (pageCreateReq_session_eq hreq hp).trans (if_neg (Nat.not_lt.mpr hfit))
    exact ⟨_, whenRunning_eq_next hrun hopen, rfl, hsize⟩
  · exact whenRunning_eq_next hrun (pageCreateReq_malformed h s)

/-! ### WRITE_DATA_EVT (R206) -/

theorem writeDataEvt_idle {pl chunk : Bytes} (hc : writeChunk pl = some chunk) {s : State}
    (hp : s.dfu.inProgress = false) : writeDataEvt pl s = transmit [cancelFrame s.cfg] s := by
  simp only [writeDataEvt, hc]
  rw [if_pos hp, emitCancel_eq]

/-- In a session the room left in the page decides. -/
theorem writeDataEvt_session_eq {pl chunk : Bytes} (hc : writeChunk pl = some chunk) {s : State}
    (hp : s.dfu.inProgress = true) :
    writeDataEvt pl s =
      if s.dfu.pageOffset.toNat + chunk.length ≤ s.dfu.pageSize.toNat then appendChunk chunk s else s := by
  simp only [writeDataEvt, hc]
  rw [if_neg (by simp [hp])]

/-- Settles O32. -/
theorem writeDataAppendsChunkOrDropsIt : Obligations.WriteDataAppendsChunkOrDropsIt := by
  intro chunk rest s hrun hlen p
  have hc : writeChunk p = some chunk := writeChunk_cons hlen rest
  refine ⟨fun hp => ?_, fun hp hfit => ?_, fun hp hbig => ?_, fun bad h => ?_⟩
  · exact whenRunning_eq_next hrun (writeDataEvt_idle hc hp)
  · have happend := (writeDataEvt_session_eq hc hp).trans (if_pos hfit)
    refine ⟨_, whenRunning_eq_next hrun happend, rfl, appendChunk_offset hfit, fun k hk => ?_, fun j hj => ?_⟩
    · refine (memRead_memWrite_inside .pbuf s.dfu.pbuf _ chunk _ (by omega) (by omega)).trans ?_
      simp [hk]
    · exact memRead_memWrite_outside .pbuf s.dfu.pbuf _ chunk j hj
  · exact whenRunning_eq_next hrun ((writeDataEvt_session_eq hc hp).trans (if_neg (Nat.not_le.mpr hbig)))
  · exact whenRunning_eq_next hrun (writeDataEvt_malformed h s)

/-! ### PAGE_STORE_REQ's entry checks (R207) -/

theorem pageStoreReq_idle {s : State} (hp : s.dfu.inProgress = false) :
    pageStoreReq s =
      transmit [responseFrame s.cfg .pageStoreResp .operationNotPermitted, cancelFrame s.cfg] s := by
  rw [pageStoreReq, if_pos hp, emitCancel_eq, respond_eq]
  exact transmit_transmit _ _ s

/-- Settles O33. -/
theorem pageStoreEntryChecks : Obligations.PageStoreEntryChecks := by
  intro p s hrun
  refine ⟨fun hp => whenRunning_eq_next hrun (pageStoreReq_idle hp), fun hp hempty => ?_,
    fun hp hne hpart => ?_⟩
  · refine whenRunning_eq_next hrun ?_
    rw [pageStoreReq, if_neg (by simp [hp]), if_pos hempty, respond_eq]
  · refine whenRunning_eq_next hrun ?_
    rw [pageStoreReq, if_neg (by simp [hp]), if_neg hne, if_pos hpart, respond_eq]

/-! ### Out of a session (R218) -/

/-- Handing frames over writes no DFU field. -/
theorem dfu_of_eq_transmit {frames : List Bytes} {s t : State} (h : t = transmit frames s) : t.dfu = s.dfu := by
  rw [h, transmit_dfu]

/-- Out of a session no handler but INIT_REQ's and CANCEL_RESP's writes a DFU field. -/
theorem runHandler_idle_dfu {k : FrameClass} (hk : k ≠ .initReq ∧ k ≠ .cancelResp) (cmd : Byte) (payload : Bytes)
    {s : State} (hp : s.dfu.inProgress = false) : (runHandler k cmd payload s).dfu = s.dfu := by
  cases k with
  | initReq => exact absurd rfl hk.1
  | cancelResp => exact absurd rfl hk.2
  | statusReq => exact dfu_of_eq_transmit (statusReq_eq s)
  | pageCreateReq =>
    by_cases h : payload.length < 4
    · exact congrArg State.dfu (pageCreateReq_malformed h s)
    · exact dfu_of_eq_transmit (pageCreateReq_idle (requestedSize_of_le (by omega)) hp)
  | writeDataEvt =>
    by_cases h : payload.length < 1 ∨ payload.length < 1 + (byteAt payload 0).toNat
    · exact congrArg State.dfu (writeDataEvt_malformed h s)
    · exact dfu_of_eq_transmit (writeDataEvt_idle (writeChunk_of_le (by omega) (by omega)) hp)
  | pageStoreReq => exact dfu_of_eq_transmit (pageStoreReq_idle hp)
  | stateCheckResp =>
    simp only [runHandler, stateCheckResp]
    (repeat' split)
    · rfl
    · rfl
    · exact dfu_of_eq_transmit (emitCancel_eq s)
  | fwd => rfl
  | ignore => rfl

/-- Settles O40: the handlers out of a session; STATUS_REQ reports nothing flashed and no page. -/
theorem outOfSessionLaw : Obligations.OutOfSessionLaw := by
  intro p s hrun hd
  have hp : s.dfu.inProgress = false := congrArg Session.inProgress hd
  refine ⟨fun i t hi hinit hcancel h => ?_,
    fun h => whenRunning_eq_next hrun (pageCreateReq_idle (requestedSize_of_le h) hp),
    whenRunning_eq_next hrun (pageStoreReq_idle hp),
    fun h hc => whenRunning_eq_next hrun (writeDataEvt_idle (writeChunk_of_le h hc) hp), ?_⟩
  · obtain ⟨k, cmd, payload, rfl, -, rfl⟩ := exec_frame_next hi h
    exact runHandler_idle_dfu ⟨fun hk => hinit payload (by rw [hk]; rfl), fun hk => hcancel payload (by rw [hk]; rfl)⟩
      cmd payload hp
  · exact statusReportsProgressAndCrc p [] [] s hrun (by rw [hd]; rfl) (by rw [hd]; rfl) nofun nofun (by decide)

end Sys2Proof.Machine
end

section
/-! The DFU handlers that write FLASH: INIT_REQ's erase (42_dfu_engine.md R203), and the last page of an image
(R209–R211). -/

namespace Sys2Proof.Machine

/-! ### INIT_REQ (R203) -/

/-- Every byte of the region is erased (20_memory.md R76). -/
theorem eraseRegion_inside (s : State) {i : Nat} (h : i < s.cfg.flashRegionSize) :
    (eraseRegion s).cell .flash i = some s.cfg.erasedValue := by
  refine (memRead_memWrite_inside .flash s.flash 0 _ i (Nat.zero_le i) (by simpa using h)).trans ?_
  rw [Nat.sub_zero, List.getElem?_replicate_of_lt h]

/-- No byte beyond the region changes (R76). -/
theorem eraseRegion_outside (s : State) {i : Nat} (h : s.cfg.flashRegionSize ≤ i) :
    (eraseRegion s).cell .flash i = s.cell .flash i :=
  memRead_memWrite_outside .flash s.flash 0 _ i (.inr (by simpa using h))

theorem exec_initReq_wellFormed {pl : Bytes} (h : initWellFormed pl = true) {s : State} (hrun : Running s) :
    exec (.initReq pl) s = .next (handleInit pl s) :=
  whenRunning_eq_next hrun (if_pos h)

section
variable {pl : Bytes} {s : State}

theorem handleInit_invalid (h : validateApp s.cfg (initApp pl) = .invalid) :
    handleInit pl s = resetSession (transmit [responseFrame s.cfg .initResp .invalidObject] s) := by
  unfold handleInit
  rw [h]
  exact respond_eq _ _ _

theorem handleInit_upToDate (h : validateApp s.cfg (initApp pl) = .upToDate) :
    handleInit pl s = resetSession (transmit [responseFrame s.cfg .initResp .firmwareAlreadyUpToDate] s) := by
  unfold handleInit
  rw [h]
  exact respond_eq _ _ _

/-- Valid application data: the size test, and the session opened over the erased region. -/
theorem handleInit_valid (h : validateApp s.cfg (initApp pl) = .valid) :
    handleInit pl s =
      if s.cfg.flashRegionSize < (initSize pl).toNat then
        resetSession (transmit [responseFrame s.cfg .initResp .insufficientResources] s)
      else
        setDfu { Session.initial with
          inProgress := true, firmwareSize := initSize pl, expectedSha256 := initDigest pl }
          (eraseRegion (transmit [responseFrame s.cfg .initResp .success] s)) := by
  unfold handleInit acceptInit
  simp only [h, respond_eq]
  rfl

end

/-- Settles O29: the verdict on the application data, then the size. -/
theorem initReqOutcomes : Obligations.InitReqOutcomes := by
  refine ⟨fun bad s hrun hbad => whenRunning_eq_next hrun (initReq_malformed hbad s), ?_⟩
  intro size sha app rest s hrun hsha happ p
  have hexec := exec_initReq_wellFormed (initWellFormed_initPayload hsha happ size rest) hrun
  have hdata := initApp_initPayload hsha happ size rest
  have hsize := initSize_initPayload size sha app rest
  have hdigest := initDigest_initPayload hsha size app rest
  refine ⟨fun hv => ?_, fun hv => ?_, fun hv hbig => ?_, fun hv hfit => ?_⟩
  · exact hexec.trans (congrArg _ (handleInit_invalid (hdata.symm ▸ hv)))
  · exact hexec.trans (congrArg _ (handleInit_upToDate (hdata.symm ▸ hv)))
  · refine hexec.trans (congrArg _ ?_)
    rw [handleInit_valid (hdata.symm ▸ hv), hsize, if_pos hbig]
    rfl
  · have hopened := handleInit_valid (s := s) (hdata.symm ▸ hv)
    rw [hsize, hdigest, if_neg (Nat.not_lt.mpr hfit)] at hopened
    exact ⟨_, hexec.trans (congrArg _ hopened), rfl, fun i hi => eraseRegion_inside s hi,
      fun i hi => eraseRegion_outside s hi⟩

/-! ### The last page of an image (R209–R211) -/

/-- A state in which PAGE_STORE_REQ writes the page that completes the image `before ++ page`: the page is complete, its
write is admitted and succeeds, and nothing is left of the declared size. -/
structure LastPage (before page : Bytes) (s : State) : Prop where
  valid : s.cfg.Valid
  inProgress : s.dfu.inProgress = true
  nonempty : s.dfu.pageOffset ≠ 0
  full : s.dfu.pageOffset = s.dfu.pageSize
  pageLength : page.length = s.dfu.pageOffset.toNat
  pageHeld : Holds s .pbuf 0 page
  beforeLength : before.length = s.dfu.firmwareOffset.toNat
  beforeHeld : Holds s .flash 0 before
  admitted : flashAdmits s.cfg (s.cfg.flashBase.toNat + before.length) page.length = true
  drawOk : (drawFlash s.draws).1 = .ok
  complete : before.length + page.length = s.dfu.firmwareSize.toNat

namespace LastPage

variable {before page : Bytes} {s : State} (h : LastPage before page s)
include h

theorem admitted_pageAddress : flashAdmits s.cfg (pageAddress s) page.length = true := by
  rw [pageAddress, ← h.beforeLength]
  exact h.admitted

/-- FLASH holds the whole image once the page is stored. -/
theorem image_held : Holds (pageStored page s) .flash 0 (before ++ page) := by
  intro k hk
  rw [Nat.zero_add]
  by_cases hb : k < before.length
  · have hold := h.beforeHeld k hb
    rw [Nat.zero_add] at hold
    rw [pageStored_outside h.valid (.inl (h.beforeLength ▸ hb)), hold, List.getElem_append_left hb]
  · rw [List.length_append] at hk
    have hnew := pageStored_holds h.valid page (k - before.length) (by omega)
    rw [← h.beforeLength, Nat.add_sub_cancel' (Nat.le_of_not_lt hb)] at hnew
    rw [hnew, List.getElem_append_right (Nat.le_of_not_lt hb)]

/-- No byte beyond the padded page changes. -/
theorem kept_beyond {i : Nat} (hi : before.length + paddedLength s.cfg page.length ≤ i) :
    (pageStored page s).cell .flash i = s.cell .flash i :=
  pageStored_outside h.valid (.inr (h.beforeLength ▸ hi))

/-- The last page stored completes the image. -/
theorem offset_eq_size : (pageStored page s).dfu.firmwareOffset = (pageStored page s).dfu.firmwareSize := by
  obtain ⟨-, hfit⟩ := (flashAdmits_pageAddress s page.length).mp h.admitted_pageAddress
  apply BitVec.eq_of_toNat_eq
  rw [pageStored_offset h.valid h.pageLength hfit, ← h.beforeLength]
  exact h.complete

/-- PAGE_STORE_REQ compares the image's digest with the expected one (R210). -/
theorem pageStoreReq_eq :
    pageStoreReq s =
      if s.cfg.sha256 (before ++ page) = s.dfu.expectedSha256 then commitImage (pageStored page s)
      else resetSession (respond .pageStoreResp .invalidObject (pageStored page s)) := by
  have hpb : pageBytes s = page := pageBytes_eq h.pageLength h.pageHeld
  have hadmit : flashAdmits s.cfg (pageAddress s) (pageBytes s).length = true := hpb ▸ h.admitted_pageAddress
  have himage : flashBytes (pageStored page s) (pageStored page s).dfu.firmwareSize.toNat = before ++ page :=
    flashBytes_eq (List.length_append.trans h.complete) h.image_held
  rw [pageStoreReq_complete h.inProgress h.nonempty h.full, storePage_ok hadmit h.drawOk, hpb, afterPageWrite,
    if_pos h.offset_eq_size, verifyImage, himage]
  rfl

end LastPage

/-- Settles O36. -/
theorem digestMismatchResetsSession : Obligations.DigestMismatchResetsSession := by
  intro p before page s hrun hv hp hne hfull hpl hpage hbl hbefore hadmit hdraw hsize hsha
  have h : LastPage before page s := ⟨hv, hp, hne, hfull, hpl, hpage, hbl, hbefore, hadmit, hdraw, hsize⟩
  have hstore : pageStoreReq s = resetSession (respond .pageStoreResp .invalidObject (pageStored page s)) := by
    rw [h.pageStoreReq_eq, if_neg hsha]
  rw [respond_eq] at hstore
  exact ⟨_, whenRunning_eq_next hrun hstore, rfl, h.image_held, fun _ hi => h.kept_beyond hi⟩

/-- The words that cover `n` bytes, not one more (00_scope.md R12). -/
theorem ceilDiv_mul_lt (n : Nat) {w : Nat} (hw : 1 ≤ w) : ceilDiv n w * w < n + w := by
  have := Nat.div_mul_le_self (n + w - 1) w
  unfold ceilDiv
  omega

/-- Settles O37: the words cover the image as a padded write of its size would. -/
theorem matchingDigestCommitsAndHalts : Obligations.MatchingDigestCommitsAndHalts := by
  intro p before page s hrun hv hp hne hfull hpl hpage hbl hbefore hadmit hdraw hsize hsha
  have h : LastPage before page s := ⟨hv, hp, hne, hfull, hpl, hpage, hbl, hbefore, hadmit, hdraw, hsize⟩
  have hstore : pageStoreReq s = commitImage (pageStored page s) := by rw [h.pageStoreReq_eq, if_pos hsha]
  rw [commitImage, respond_eq] at hstore
  exact ⟨_, _, ceilDiv s.dfu.firmwareSize.toNat s.cfg.flashWordBytes,
    whenRunning_eq_next hrun hstore, rfl, rfl,
    le_paddedLength s.cfg s.dfu.firmwareSize.toNat hv.wordBytes_pos, ceilDiv_mul_lt _ hv.wordBytes_pos,
    fun _ _ => exec_ne_next_of_halted rfl, h.image_held, fun _ hi => h.kept_beyond hi⟩

end Sys2Proof.Machine
end

section
/-! A page whose flash write fails: rejected by the flash layer, or admitted with the draw `fail` (20_memory.md R77,
42_dfu_engine.md R208, 60_exceptions.md R255). -/

namespace Sys2Proof.Machine

/-- The state after a page's admitted write that failed: junk in the padded range, the session kept (R77, R208). -/
def pageJunked (s : State) : State :=
  setFlash (memWrite .flash s.flash s.dfu.firmwareOffset.toNat
    (drawJunk (paddedLength s.cfg s.dfu.pageOffset.toNat) (drawFlash s.draws).2).1)
    (setDraws (drawJunk (paddedLength s.cfg s.dfu.pageOffset.toNat) (drawFlash s.draws).2).2 s)

/-- A page the flash layer does not admit is answered OPERATION_FAILED alone (R77, R208). -/
theorem storePage_rejected {s : State} (ha : flashAdmits s.cfg (pageAddress s) s.dfu.pageOffset.toNat = false) :
    storePage s = transmit [responseFrame s.cfg .pageStoreResp .operationFailed] s := by
  rw [← pageBytes_length] at ha
  rw [storePage, flashWrite_rejected ha]
  exact respond_eq _ _ _

/-- An admitted page whose draw is `fail` leaves junk and is answered OPERATION_FAILED (R77, R208). -/
theorem storePage_failed {s : State} (ha : flashAdmits s.cfg (pageAddress s) s.dfu.pageOffset.toNat = true)
    (ho : (drawFlash s.draws).1 = .fail) :
    storePage s = transmit [responseFrame s.cfg .pageStoreResp .operationFailed] (pageJunked s) := by
  rw [← pageBytes_length] at ha
  rw [storePage, flashWrite_fail ha ho, pageAddress_offset, pageBytes_length]
  exact respond_eq _ _ (pageJunked s)

/-- The padded range holds the drawn bytes (R77). -/
theorem pageJunked_holds (s : State) :
    Holds (pageJunked s) .flash s.dfu.firmwareOffset.toNat
      (drawJunk (paddedLength s.cfg s.dfu.pageOffset.toNat) (drawFlash s.draws).2).1 := by
  intro k hk
  refine (memRead_memWrite_inside .flash s.flash _ _ _ (Nat.le_add_right _ k) (by omega)).trans ?_
  rw [Nat.add_sub_cancel_left, List.getElem?_eq_getElem hk]

/-- No byte outside the padded range changes (R77). -/
theorem pageJunked_outside {s : State} {i : Nat}
    (h : i < s.dfu.firmwareOffset.toNat ∨
      s.dfu.firmwareOffset.toNat + paddedLength s.cfg s.dfu.pageOffset.toNat ≤ i) :
    (pageJunked s).cell .flash i = s.cell .flash i :=
  memRead_memWrite_outside .flash s.flash _ _ _ (by rwa [drawJunk_length])

/-- Settles O34: the flash layer rejects the page, or admits it and its draw is `fail`. -/
theorem failedPageStoreKeepsSession : Obligations.FailedPageStoreKeepsSession := by
  intro p s hrun hp hne hfull w off padded
  have hstore : pageStoreReq s = storePage s := pageStoreReq_complete hp hne hfull
  have hadmits := flashAdmits_pageAddress s s.dfu.pageOffset.toNat
  refine ⟨fun hbad => ?_, fun halign hfit ho => ?_⟩
  · have hreject : flashAdmits s.cfg (pageAddress s) s.dfu.pageOffset.toNat = false := by
      rw [Bool.eq_false_iff, Ne, hadmits]
      exact fun ⟨halign, hfit⟩ => hbad.elim (· halign) (Nat.not_lt.mpr hfit)
    exact whenRunning_eq_next hrun (hstore.trans (storePage_rejected hreject))
  · have hadmit := hadmits.mpr ⟨halign, hfit⟩
    exact ⟨_, _, _, rfl, drawJunk_length _ _, whenRunning_eq_next hrun (hstore.trans (storePage_failed hadmit ho)),
      rfl, pageJunked_holds s, fun _ h => pageJunked_outside h⟩

end Sys2Proof.Machine
end

section
/-! The sharing table (60_exceptions.md R272). -/

namespace Sys2Proof.Machine

/-- The ring-buffer operations take no draw. -/
theorem RingEffect.draws {g : Option Agent} {s t : State} (h : RingEffect g s t) : t.draws = s.draws := by
  induction h with
  | raised _ _ ih => exact ih
  | returned _ _ ih => exact ih
  | _ => rfl

theorem isFrame_frameInstr (k : FrameClass) (cmd : Byte) (payload : Bytes) :
    isFrame (frameInstr k cmd payload) = true := by
  cases k <;> rfl

/-- A port operation that neither polls nor hands a frame over has an effect on the ring buffer alone (R272). -/
theorem exec_port_ringEffect {i : Instr} (hframe : isFrame i = false) (hpoll : i ≠ .frPoll)
    (hsend : ∀ a payload, i ≠ .frSend a payload) (hcheck : i ≠ .dfuStateCheck) {s t : State}
    (h : exec i s = .next t) : RingEffect (owner i) s t := by
  cases i
  case initReq | statusReq | pageCreateReq | writeDataEvt | pageStoreReq | stateCheckResp | cancelResp | fwd |
    ignore => nomatch hframe
  case frPoll => exact absurd rfl hpoll
  case frSend a payload => exact absurd rfl (hsend a payload)
  case dfuStateCheck => exact absurd rfl hcheck
  all_goals obtain ⟨-, rfl⟩ := whenRunning_next h
  case rbInit c => exact rbInit_effect c
  case reservedD | reservedEF => exact refuseRequest_effect _
  all_goals refine whenInitialised_effect fun hi => ?_
  case rbIsEmpty | rbDataLen | rbGetMaxContiguousSlice => exact .returned _ .keep
  case rbQueueBytes data => exact queueBytes_effect data hi
  case rbDequeueByte => exact dequeueByte_effect
  case rbSetWriteIndex v => exact setWriteIndex_effect v
  case rbIncrementReadIndex n => exact incrementReadIndex_effect n
  case rbArrayWrite a data => exact arrayWrite_effect a data
  case rbArrayRead a => exact arrayRead_effect a

/-- What every port operation but FR_POLL leaves to CONSUMER (R272). -/
theorem InstrEffect.port_frame {i : Instr} {s t : State} (h : InstrEffect i s t) (hframe : isFrame i = false)
    (hpoll : i ≠ .frPoll) :
    t.fr = s.fr ∧ t.dfu = s.dfu ∧ t.flash = s.flash ∧ t.logs.fwd = s.logs.fwd ∧ t.logs.commit = s.logs.commit ∧
      t.blk.halted = s.blk.halted := by
  cases h with
  | ring h =>
    obtain ⟨-, hfr, hdfu, hflash, hlogs, hhalt⟩ := h.frame
    exact ⟨hfr, hdfu, hflash, congrArg Logs.fwd hlogs, congrArg Logs.commit hlogs, hhalt⟩
  | emitted r cmd payload =>
    obtain ⟨hdfu, hflash, hfwd, hcommit, hblk⟩ := emit_unchanged cmd payload s
    exact ⟨(emit_frame cmd payload s).fr, hdfu, hflash, hfwd, hcommit, congrArg Block.halted hblk⟩
  | handled k cmd payload => simp [isFrame_frameInstr] at hframe
  | received => exact absurd rfl hpoll
  | dispatched => exact absurd rfl hpoll

/-- Settles O46: a port operation's frame, and the frame of every handler. -/
theorem sharingTable : Obligations.SharingTable := by
  intro i s t h
  refine ⟨fun hframe hpoll => ?_, fun hframe => ?_⟩
  · obtain ⟨hfr, hdfu, hflash, hfwd, hcommit, hhalt⟩ := (exec_effect h).port_frame hframe hpoll
    refine ⟨hfr, hdfu, hflash, hfwd, hcommit, hhalt, fun hsend hcheck => ?_⟩
    have hring := exec_port_ringEffect hframe hpoll hsend hcheck h
    obtain ⟨-, -, -, -, hlogs, -⟩ := hring.frame
    exact ⟨hlogs, hring.draws⟩
  · obtain ⟨k, cmd, payload, -, -, rfl⟩ := exec_frame_next hframe h
    have hk := runHandler_frame k cmd payload s
    exact ⟨hk.rb, hk.fr, hk.result⟩

end Sys2Proof.Machine
end

section
/-! The external reset (70_reset_and_hazards.md R280). -/

namespace Sys2Proof.Machine

/-- An external reset first in the inbox is what the next step does, in a halted block too (R280). -/
theorem step_reset {s : State} {rest : List Event} (h : s.inbox = .reset :: rest) :
    step s = .next (externalReset { s with inbox := rest }) := by
  simp only [step, fetch, h]

/-- A step but for the external reset leaves a halted block halted: no instruction runs in it (R45). -/
theorem step_halted_sticky {s t : State} (h : step s = .next t) (hr : ∀ rest, s.inbox ≠ .reset :: rest)
    (hh : s.blk.halted = true) : t.blk.halted = true := by
  obtain ⟨-, rfl⟩ | ⟨rest, hbox, -⟩ | ⟨r, rest, i, -, -, -, hexec⟩ := step_next_cases h
  · exact hh
  · exact absurd hbox (hr rest)
  · exact absurd hexec (exec_ne_next_of_halted hh)

/-- Settles O50: the reset state lists no cell of RBA and RXP, and carries FLASH over. -/
theorem externalResetSetsResetColumn : Obligations.ExternalResetSetsResetColumn := by
  refine ⟨fun rest s hbox => ⟨externalReset { s with inbox := rest }, step_reset hbox, ?_⟩,
    fun s t hr h => ⟨step_halted_sticky h hr, step_faults_sticky h hr⟩⟩
  exact ⟨rfl, rfl, rfl, rfl, hasFault_none, rfl, rfl, rfl, fun _ => rfl, fun _ => ⟨rfl, rfl⟩⟩

end Sys2Proof.Machine
end

section
/-! The step of the environment's next event (30_encoding.md R100, 60_exceptions.md R265, R269), and the state after reset
(10_state.md R53). -/

namespace Sys2Proof.Machine

/-! ### What the fetch of a request answers -/

theorem fetch_request {s : State} {r : Request} {rest : List Event} (h : s.inbox = .request r :: rest) :
    fetch s = fetchRequest r { s with inbox := rest } := by
  simp only [fetch, h]

theorem fetchRequest_halted (r : Request) {s : State} (h : s.blk.halted = true) : fetchRequest r s = .stop .halted :=
  if_pos h

theorem fetchRequest_owned {r : Request} {i : Instr} {s : State} (hrun : Running s)
    (hdec : decodePort r.word r.data = .ok i) (howns : owns r.agent i = true) : fetchRequest r s = .run i s := by
  simp [fetchRequest, hrun, hdec, howns]

theorem fetchRequest_notOwned {r : Request} {i : Instr} {s : State} (hrun : Running s)
    (hdec : decodePort r.word r.data = .ok i) (howns : owns r.agent i = false) :
    fetchRequest r s = .stop .notOwner := by
  simp [fetchRequest, hrun, hdec, howns]

/-- Longer data than R100 allows is no request. -/
theorem decodePort_tooLong (w : BitVec 20) {data : Bytes} (h : Config.maxData < data.length) :
    decodePort w data = .error .dataTooLong :=
  if_neg (Nat.not_le.mpr h)

theorem fetchRequest_tooLong {r : Request} {s : State} (hrun : Running s) (h : Config.maxData < r.data.length) :
    fetchRequest r s = .refuse .requestTooLong := by
  simp [fetchRequest, hrun, decodePort_tooLong r.word h]

/-! ### The step of an event -/

/-- With no event the block does not change (00_scope.md R8). -/
theorem step_idle {s : State} (h : s.inbox = []) : step s = .next s := by
  simp only [step, fetch, h]

/-- Settles O48: the external reset is taken before the halt bit is looked at, a request after it. -/
theorem haltedEnablesNoOperation : Obligations.HaltedEnablesNoOperation := by
  intro s hh
  refine ⟨fun i => exec_halted i s hh, fun r rest hbox => ?_, fun rest hbox => ⟨_, step_reset hbox, rfl⟩⟩
  rw [step, fetch_request hbox, fetchRequest_halted r (s := { s with inbox := rest }) hh]

/-- Settles O49, by what the fetch of the request answers. -/
theorem stepRunsDecodedRequest : Obligations.StepRunsDecodedRequest := by
  refine fun r rest s => ⟨fun hrun hbox => ?_, step_idle⟩
  have hrun' : Running { s with inbox := rest } := hrun
  rw [step, fetch_request hbox]
  refine ⟨fun i hdec howns => ?_, fun i hdec howns => ?_, fun hlong => ?_⟩
  · rw [fetchRequest_owned hrun' hdec howns]
  · rw [fetchRequest_notOwned hrun' hdec howns]
  · rw [fetchRequest_tooLong hrun' hlong]

/-! ### The state after reset -/

/-- After reset no space lists a cell (R53, R70, R73). -/
theorem reset_cell (sp : Space) (a : Nat) : State.reset.cell sp a = sp.unlisted := by
  cases sp <;> exact memRead_nil _ a

/-- Settles O51: an unlisted cell is unwritten in RBA and RXP and zero in PBUF; the other values are those reset writes. -/
theorem resetLeavesSpecifiedValues : Obligations.ResetLeavesSpecifiedValues :=
  ⟨rfl, rfl, rfl, rfl, rfl, fun i => ⟨reset_cell .rba i, reset_cell .rxp i⟩, fun j _ => reset_cell .pbuf j⟩

/-- After reset the receiver waits for a frame's first byte, so it owes no written cell (R37, R72). -/
theorem reset_receiverOk : ReceiverOk State.reset :=
  ⟨Nat.zero_le _, Nat.zero_le _, reset_memory_wf .rxp, nofun, nofun⟩

/-- Settles O53: the buffer is uninitialised, the session is the reset one, the block runs, and no memory lists a cell. -/
theorem invHoldsAtReset : Obligations.InvHoldsAtReset :=
  ⟨reset_cfg_valid, ⟨nofun, reset_memory_wf .rba, nofun⟩, reset_receiverOk, initial_sessionOk rfl,
    ⟨reset_memory_wf .flash, nofun⟩, rfl⟩

end Sys2Proof.Machine
end
